-- ==== Sys2Proof/Word.lean ====
section
/-! DEFINITION. Word.lean: the word types of the CNSL CRC core (00_scope.md rules R13, R14; 10_state.md rule R21;
30_encoding.md rules R90, R91). -/

namespace Sys2Proof

/-- A 32-bit host register or command word (R21, R90). -/
abbrev Word := BitVec 32

/-- One cell of BYTES (R38). -/
abbrev Byte := BitVec 8

/-- The ARG field of a command word, bits 27:0 (R90, R91). -/
abbrev Arg := BitVec 28

/-- A bit sequence: element 0 is the first and most significant bit (R13). -/
abbrev Bits := List Bool

end Sys2Proof
end

