-- ==== Sys2Proof/Config.lean ====
section
/-! DEFINITION. Config.lean: what a build of the block fixes (00_scope.md rules R9 to R11) and the free values:
the command latency (R9, R243, U6) and the content of a BYTES cell that nothing has written (R231, U1). -/

namespace Sys2Proof

/-- The elaboration parameters of R9. K is not held twice: P is a (K+1)-bit sequence, so K is its length less one
(`Params.K`, log 1). HAS_FLIP is a Bool, so a value outside 0 and 1 cannot be written down (U12). -/
structure Params where
  /-- The generator P[0..K], P[0] the coefficient of x^K. -/
  P : Bits
  /-- The largest message, in bytes. -/
  msgBytes : Nat
  /-- Whether the FLIP command is present (R4). -/
  hasFlip : Bool
  deriving DecidableEq, Repr

/-- The defaults of R9: P = 1101, so K = 3; MSG_BYTES = 256; HAS_FLIP = 1. -/
def Params.default : Params :=
  { P := [true, true, false, true], msgBytes := 256, hasFlip := true }

/-- What LATENCY may depend on besides the command (R9 LATENCY(cmd, state)): the block's whole state at acceptance,
and the model's draw counter, so that two acceptances need not agree (log 2). -/
structure LatencyView where
  params : Params
  mbuf : Bits
  cbuf : Bits
  bytes : List Host.Cell
  blen : BitVec 28
  crcv : Word
  rcrc : Word
  status : Word
  draw : Nat
  deriving DecidableEq, Repr

/-- FREE VALUE. How many moves of the host an accepted command stays in flight for, beyond the completion step itself
(R243: finite, otherwise OPEN). It has no body: nothing can be proved of its value (log 2). -/
opaque Config.latency (w : Word) (v : LatencyView) : Nat

/-- FREE VALUE. What draw number `draw` reads from BYTES cell `j` when nothing has written the cell since reset
(R231, U1 "any value, a fresh draw per read"). It has no body (log 4). -/
opaque Config.freeByte (draw j : Nat) : Byte

end Sys2Proof
end

