-- ==== Sys2Proof/Syntax.lean ====
section
/-! DEFINITION. Syntax.lean: the eleven commands, one constructor for each row of spec/opcode_table.json (00_scope.md
rule R3, 30_encoding.md rule R92). All other operands are implicit (R91). -/

namespace Sys2Proof

/-- A command of the block (R92). Only UNPACK, SPLIT and FLIP carry an operand. -/
inductive Instr where
  | nop
  | encode
  | pack
  /-- `bitCount`: the exact number of codeword bits in BYTES. -/
  | unpack (bitCount : Arg)
  | decode
  | crc
  | verify
  | assemble
  /-- `messageLen`: the number of message bits in the codeword. -/
  | split (messageLen : Arg)
  /-- `bitIndex`: the index in CBUF of the bit to flip. -/
  | flip (bitIndex : Arg)
  | clear
  deriving DecidableEq, Repr

end Sys2Proof
end

