-- ==== Sys2Proof/WellFormed.lean ====
section
/-! DEFINITION. WellFormed.lean: which commands a build has. An operand is 28 bits wide by its type (R91), so the one
check left is that FLIP is present only when HAS_FLIP = 1 (30_encoding.md rules R92, R94). -/

namespace Sys2Proof

/-- The command exists in a build with this HAS_FLIP (R92, R94). -/
def WellFormed (hasFlip : Bool) : Instr → Bool
  | .nop => true
  | .encode => true
  | .pack => true
  | .unpack _ => true
  | .decode => true
  | .crc => true
  | .verify => true
  | .assemble => true
  | .split _ => true
  | .flip _ => hasFlip
  | .clear => true

end Sys2Proof
end

