-- ==== Sys2Proof/Decode.lean ====
section
/-! DEFINITION. Decode.lean: command words to commands and back (30_encoding.md rules R90 to R96). -/

namespace Sys2Proof

/-- OP, bits 31:28 of a command word (R90). -/
def opField (w : Word) : BitVec 4 := w.extractLsb' 28 4

/-- ARG, bits 27:0 of a command word (R90, R91). -/
def argField (w : Word) : Arg := w.extractLsb' 0 28

/-- Why a word is ILLEGAL (R93 to R95). Every reason completes with the same code, IllegalCommand. -/
inductive IllegalReason where
  /-- OP 0xA to 0xE (R94). -/
  | reservedOp (op : BitVec 4)
  /-- OP 0x9 with HAS_FLIP = 0 (R94). -/
  | flipAbsent
  /-- A non-zero ARG on a command that takes none (R95). -/
  | argNotZero (op : BitVec 4) (arg : Arg)
  deriving DecidableEq, Repr

/-- A command that takes no operand: legal only with ARG = 0 (R95). -/
def plainCommand (op : BitVec 4) (arg : Arg) (i : Instr) : Except IllegalReason Instr :=
  if arg = 0 then .ok i else .error (.argNotZero op arg)

/-- R93. Total: every 32-bit word is one command or is rejected by name. -/
def decode (hasFlip : Bool) (w : Word) : Except IllegalReason Instr :=
  let op := opField w
  let a := argField w
  match op.toNat with
  | 0x0 => plainCommand op a .nop
  | 0x1 => plainCommand op a .encode
  | 0x2 => plainCommand op a .pack
  | 0x3 => .ok (.unpack a)
  | 0x4 => plainCommand op a .decode
  | 0x5 => plainCommand op a .crc
  | 0x6 => plainCommand op a .verify
  | 0x7 => plainCommand op a .assemble
  | 0x8 => .ok (.split a)
  | 0x9 => if hasFlip then .ok (.flip a) else .error .flipAbsent
  | 0xF => plainCommand op a .clear
  | _ => .error (.reservedOp op)

/-- The OP column of R92. -/
def opcode : Instr → BitVec 4
  | .nop => 0x0
  | .encode => 0x1
  | .pack => 0x2
  | .unpack _ => 0x3
  | .decode => 0x4
  | .crc => 0x5
  | .verify => 0x6
  | .assemble => 0x7
  | .split _ => 0x8
  | .flip _ => 0x9
  | .clear => 0xF

/-- The ARG column of R92: the operand of UNPACK, SPLIT and FLIP, and 0 for all others (R91). -/
def operand : Instr → Arg
  | .unpack b => b
  | .split m => m
  | .flip i => i
  | .nop | .encode | .pack | .decode | .crc | .verify | .assemble | .clear => 0

/-- The command word: OP in bits 31:28, ARG in bits 27:0 (R90, R97 "`<word> = OP << 28 | n`"). -/
def encode (i : Instr) : Word := opcode i ++ operand i

/-- The 32-bit word whose lowest `nbits` bits are those of `w` and whose other bits are 0. -/
def tableWord (nbits w : Nat) : Word := BitVec.ofNat 32 (w % 2 ^ nbits)

/-- The command the decoder reads from a table row's word, in the default build (HAS_FLIP = 1). A command is one
32-bit bus write, so there is nothing to lay out in bytes (R90, R96). -/
def decodeTableWord (nbits w : Nat) : Option Instr :=
  if nbits ≤ 32 then (decode Params.default.hasFlip (tableWord nbits w)).toOption else none

end Sys2Proof
end

