-- ==== Sys2Proof/Machine/State.lean ====
section
/-! DEFINITION. State.lean: everything the spec gives the machine (10_state.md), the HOST agent's remaining accesses
and record (00_scope.md rules R8, R18; 30_encoding.md rule R98), and why a step can stop. INVENTORY.md lists each field
with its rule. -/

namespace Sys2Proof.Machine

/-- The error codes of R200. Codes 5 to 15 are never produced and have no constructor (U10). -/
inductive ErrCode where
  | none
  | lengthMismatch
  | capacity
  | illegalCommand
  | invalidBitIndex
  deriving DecidableEq, Repr

/-- BYTES (R38, R60): the written cells as (index, byte), indices strictly rising. A cell that is not listed has not
been written since reset and has no value of its own (R231, log 4). -/
abbrev Memory := List Host.Cell

/-- The in-flight command (R40, R205): the accepted word, and how many more host moves come before its completion. -/
structure InFlight where
  word : Word
  left : Nat
  deriving DecidableEq, Repr

/-- What reaches the block from outside, one at a time and in order (R61, R72, R98, R230; logs 7, 8). -/
inductive Input where
  /-- BusRead(off); the value is recorded (R61, R98 `rd`). -/
  | read (off : Nat)
  /-- BusRead(off), of which one lane is recorded (R98 `rdb`). -/
  | readLane (off : Nat) (lane : Fin 4)
  /-- BusWrite(off, v, strb) (R61). -/
  | write (off : Nat) (v : Word) (strb : BitVec 4)
  /-- `wait`: repeat BusRead(STATUS) until BUSY = 0 (R98). -/
  | wait
  /-- The platform asserts and releases reset (R230). -/
  | reset
  deriving DecidableEq, Repr

/-- The state of one instance of the block and of its host. -/
structure State where
  /-- The elaboration parameters (R9); no step changes them (R11). CFG, POLY, MSGCAP and BYTECAP show them. -/
  params : Params
  /-- MBUF[0..MLEN) (R36); its length is MLEN (R33). -/
  mbuf : Bits
  /-- CBUF[0..CLEN) (R37); its length is CLEN (R34). -/
  cbuf : Bits
  /-- BYTES (R38). -/
  bytes : Memory
  /-- BLEN[27:0] (R35). -/
  blen : BitVec 28
  /-- CRCV (R31). -/
  crcv : Word
  /-- RCRC (R32). -/
  rcrc : Word
  /-- STATUS.VDONE (R29). -/
  vdone : Bool
  /-- STATUS.VMATCH (R29). -/
  vmatch : Bool
  /-- STATUS.ERR (R30). -/
  err : ErrCode
  /-- STATUS.ERRSTICKY (R30). -/
  errSticky : Bool
  /-- STATUS.CMDLOST (R30). -/
  cmdLost : Bool
  /-- The in-flight command (R40); STATUS.BUSY is 1 exactly while there is one (R28, R39). -/
  inflight : Option InFlight
  /-- The host's remaining accesses, and the platform's resets, in order (R18). -/
  inputs : List Input
  /-- The values the host's reads returned, oldest first (R98). -/
  record : List Word
  /-- The model's own draw counter: it makes each free value a fresh one (log 3). -/
  draws : Nat
  deriving DecidableEq, Repr

/-- Why the machine stops with a fault. The block itself has no trap (R209): its errors are codes of completed
commands. -/
inductive Fault where
  /-- Raised by a host access R241 forbids while BUSY = 1, at this offset: a write to BLEN, a read or write of the
  BYTES window, a read of MLEN, CLEN, BLEN, CRCV or RCRC. Safe: the spec leaves the outcome open and recommends this
  fault (R12, U3, log 5). -/
  | busyHazard (off : Nat)
  /-- Raised by PACK and DECODE when they would write BYTES at or above BYTE_CAP, an index that does not exist (R60).
  Safe: the invariants of R39 rule it out (log 12). -/
  | bytesOutOfRange
  deriving DecidableEq, Repr

/-- Why the machine has no meaning for a step. -/
inductive Refusal where
  /-- Raised by no arm of `exec`: every command has its meaning. Safe. -/
  | notModelled (mnemonic : String)
  /-- Raised by `step` in a state whose parameters R9 and R11 do not allow (U12 "refuse the configuration").
  Safe: no such block exists. -/
  | illegalConfiguration
  deriving DecidableEq, Repr

/-- MLEN (R33): the length of the message sequence (R36). -/
def State.mlen (s : State) : Nat := s.mbuf.length

/-- CLEN (R34): the length of the codeword sequence (R37). -/
def State.clen (s : State) : Nat := s.cbuf.length

/-- STATUS.BUSY (R28): a command is in flight. -/
def State.busy (s : State) : Bool := s.inflight.isSome

/-- The state when reset is released (R42, R230), in the default build, with nothing for the host to do. No cell of
BYTES has a value (R231). -/
def State.reset : State where
  params := Params.default
  mbuf := []
  cbuf := []
  bytes := []
  blen := 0
  crcv := 0
  rcrc := 0
  vdone := false
  vmatch := false
  err := .none
  errSticky := false
  cmdLost := false
  inflight := none
  inputs := []
  record := []
  draws := 0

end Sys2Proof.Machine
end

