-- ==== Sys2Proof/Machine/Operands.lean ====
section
/-! DEFINITION. Operands.lean: the quantities and bit sequences commands work on: the derived parameters of
00_scope.md rules R10 and R11, the notation of R13 and R14, and the helper functions of R16. -/

namespace Sys2Proof.Machine

/-- ⌈a/b⌉ on naturals (R14). -/
def ceilDiv (a b : Nat) : Nat := (a + (b - 1)) / b

/-- K, the degree of the generator and the remainder length: P has K+1 bits (R9). -/
def paramK (p : Params) : Nat := p.P.length - 1

/-- MAX_M, the message-buffer capacity in bits (R10). -/
def maxM (p : Params) : Nat := 8 * p.msgBytes

/-- C_CAP, the codeword-buffer capacity in bits (R10). -/
def cCap (p : Params) : Nat := maxM p + paramK p

/-- BYTE_CAP, the byte-buffer capacity in bytes (R10). -/
def byteCap (p : Params) : Nat := p.msgBytes + ceilDiv (paramK p) 8

/-- The legal values of R9 and R11: 1 ≤ K ≤ 31, P[0] = 1, 1 ≤ MSG_BYTES, 8·MSG_BYTES + K ≤ 2^28 − 1. -/
def legalParams (p : Params) : Bool :=
  decide (2 ≤ p.P.length) && decide (p.P.length ≤ 32) && (p.P.head? == some true) &&
    decide (1 ≤ p.msgBytes) && decide (8 * p.msgBytes + paramK p ≤ 2 ^ 28 - 1)

/-- zeros(n) (R13). -/
def zeros (n : Nat) : Bits := List.replicate n false

/-- s[a..b), the subsequence from position a up to but not including b (R13). -/
def slice (s : Bits) (a b : Nat) : Bits := (s.drop a).take (b - a)

/-- ⊕ on two equal-length sequences (R14). -/
def xorBits (s t : Bits) : Bits := List.zipWith xor s t

/-- seq_val(s) = Σ s[i]·2^(len(s)−1−i), s[0] most significant (R16). -/
def seqVal (s : Bits) : Nat := s.foldl (fun acc b => 2 * acc + b.toNat) 0

/-- byte_bits(v) = [v[7], …, v[0]] (R16, R66). -/
def byteBits (v : Byte) : Bits := (List.range 8).map fun t => v.getLsbD (7 - t)

/-- bits_byte(g) = Σ g[t]·2^(7−t) for an 8-bit sequence (R16, R66). -/
def bitsByte (g : Bits) : Byte := BitVec.ofNat 8 (seqVal g)

/-- val_seq_K(v): the K-bit sequence s with s[i] = v[K−1−i] (R16). -/
def valSeq (k : Nat) (v : Word) : Bits := (List.range k).map fun i => v.getLsbD (k - 1 - i)

/-- zext_32(seq_val(s)): how a remainder is presented in CRCV and RCRC (R31, R32). -/
def seqWord (s : Bits) : Word := BitVec.ofNat 32 (seqVal s)

/-- A 28-bit length with bits 31:28 zero, as MLEN, CLEN and BLEN read (R33 to R35). -/
def lengthWord (n : BitVec 28) : Word := n.setWidth 32

/-- The bytes PACK makes of a bit sequence: groups of 8, MSB first, missing low-order bits 0 (R114). -/
def packBytes (s : Bits) : List Byte :=
  (List.range (ceilDiv s.length 8)).map fun j =>
    let e := min (8 * j + 8) s.length
    bitsByte (slice s (8 * j) e ++ zeros (8 * j + 8 - e))

/-- The bytes DECODE makes of a bit sequence: its whole 8-bit groups; the rest is dropped (R122, C2). -/
def wholeBytes (s : Bits) : List Byte :=
  (List.range (s.length / 8)).map fun j => bitsByte (slice s (8 * j) (8 * j + 8))

end Sys2Proof.Machine
end

