-- ==== Sys2Proof/Machine/Flags.lean ====
section
/-! DEFINITION. Flags.lean: STATUS (10_state.md rules R26, R28 to R30): its layout, the error codes, and what a
completion writes to it. -/

namespace Sys2Proof.Machine

/-- The ERR code of R200. -/
def errValue : ErrCode → BitVec 4
  | .none => 0
  | .lengthMismatch => 1
  | .capacity => 2
  | .illegalCommand => 3
  | .invalidBitIndex => 4

/-- STATUS as the host reads it (R26): BUSY 0, VDONE 1, VMATCH 2, ERR 7:4, ERRSTICKY 8, CMDLOST 9, all else 0. -/
def statusWord (s : State) : Word :=
  (0#22 ++ BitVec.ofBool s.cmdLost ++ BitVec.ofBool s.errSticky ++ errValue s.err ++ 0#1 ++
    BitVec.ofBool s.vmatch ++ BitVec.ofBool s.vdone ++ BitVec.ofBool s.busy : BitVec 32)

/-- What every completion does besides its data writes (R202): ERR and the verdict bits take the command's, ERRSTICKY
is set by a non-zero code and otherwise kept, BUSY goes to 0. The draw counter is the model's own (log 3). -/
def finish (s : State) (e : ErrCode) (done hit : Bool) : State :=
  { s with
    err := e
    errSticky := s.errSticky || decide (e ≠ .none)
    vdone := done
    vmatch := hit
    inflight := none
    draws := s.draws + 1 }

end Sys2Proof.Machine
end

