-- ==== Sys2Proof/Machine/Ops.lean ====
section
/-! DEFINITION. Ops.lean: the named operations over BYTES and the registers, and how a command ends: `complete`, `raise`
and their kin (00_scope.md rule R15, 20_memory.md rule R60, 60_exceptions.md rules R201, R202, R205, R206). -/

namespace Sys2Proof.Machine

/-! ### BYTES -/

/-- The byte last written at index `j`; none for a cell that nothing has written (R231). -/
def memGet : Memory → Nat → Option Byte
  | [], _ => none
  | c :: m, j => if c.1 = j then some c.2 else memGet m j

/-- Write one byte, keeping the indices rising. -/
def memSet : Memory → Nat → Byte → Memory
  | [], j, v => [(j, v)]
  | c :: m, j, v =>
    if j < c.1 then (j, v) :: c :: m
    else if j = c.1 then (j, v) :: m
    else c :: memSet m j v

/-- Write consecutive bytes from index `j` on. -/
def memSetList : Memory → Nat → List Byte → Memory
  | m, _, [] => m
  | m, j, v :: vs => memSetList (memSet m j v) (j + 1) vs

/-- The canonical form: indices strictly rising, so none is repeated. Every listed cell has been written; an unlisted
one has no value, so no entry can equal what an unlisted index reads as. -/
abbrev Memory.wf (m : Memory) : Prop := m.Pairwise fun a b => a.1 < b.1

/-- MemRead(j, 1) (R15). A cell that nothing has written reads as a free value (R231, U1, log 4). -/
def memRead (s : State) (j : Nat) : Byte := (memGet s.bytes j).getD (Config.freeByte s.draws j)

/-- The bits of BYTES[0..n), each byte MSB first, in index order (R110, R118). -/
def readBits (s : State) (n : Nat) : Bits := (List.range n).flatMap fun j => byteBits (memRead s j)

/-! ### How a command ends -/

/-- `complete` (R15, R202): no error; VDONE and VMATCH go to 0 (R29). -/
def complete (s : State) : State := finish s .none false false

/-- VERIFY's completion (R29, R145): VDONE is 1 and VMATCH is the verdict. -/
def completeVerdict (s : State) (hit : Bool) : State := finish s .none true hit

/-- CLEAR's completion (R192): the whole of STATUS goes to 0, the sticky bits included. -/
def completeClear (s : State) : State :=
  { finish s .none false false with errSticky := false, cmdLost := false }

/-- `raise E` (R15, R201): the command ends with that error; no data state changes. This is the block's one way of
reporting an error; it is no trap and transfers control nowhere (R209). -/
def raise (s : State) (e : ErrCode) : State := finish s e false false

/-- Write BYTES[0..n) and BLEN <- n, and complete: the ending of PACK and DECODE (R114, R122). Writing past BYTE_CAP,
which no reachable state does, faults (R60, log 12). -/
def storeBytes (s : State) (bs : List Byte) : Host.Outcome State Fault Refusal :=
  if bs.length ≤ byteCap s.params then
    .next (complete
      { s with bytes := memSetList s.bytes 0 bs, blen := BitVec.ofNat 28 bs.length })
  else
    .fault .bytesOutOfRange

/-! ### Acceptance and dropped commands -/

/-- What LATENCY may look at (R9, log 2). -/
def latencyView (s : State) : LatencyView :=
  { params := s.params, mbuf := s.mbuf, cbuf := s.cbuf, bytes := s.bytes, blen := s.blen,
    crcv := s.crcv, rcrc := s.rcrc, status := statusWord s, draw := s.draws }

/-- Acceptance (R205): BUSY <- 1 and the word is captured. The buffers and registers the command reads stay where they
are: no access can change them before the completion (R241, log 6). -/
def accept (s : State) (w : Word) : State :=
  { s with
    inflight := some { word := w, left := Config.latency w (latencyView s) }
    draws := s.draws + 1 }

/-- A dropped command (R206): the word is discarded, CMDLOST <- 1, nothing else changes. -/
def dropCommand (s : State) : State := { s with cmdLost := true }

/-- Reset (R230, R42): every register and the in-flight command take their reset value and every BYTES cell loses its
value (R231). The build, the host's own accesses and record, and the draw counter are outside the reset (log 8). -/
def platformReset (s : State) : State :=
  { State.reset with
    params := s.params, inputs := s.inputs, record := s.record, draws := s.draws }

end Sys2Proof.Machine
end

