-- ==== Sys2Proof/Machine/Bus.lean ====
section
/-! DEFINITION. Bus.lean: the host's side of the block: the register map and the BYTES window (10_state.md rules R21 to
R35, 20_memory.md rules R60 to R71), the busy-window hazard (70_reset_and_hazards.md rule R241), and one move of the
host. -/

namespace Sys2Proof.Machine

/-- The registers of the map of R21. -/
inductive Reg where
  | cfg | poly | msgcap | bytecap | cmd | status | mlen | clen | blen | crcv | rcrc
  deriving DecidableEq, Repr

/-- The offset column of R21. -/
def regOffset : Reg → Nat
  | .cfg => 0x000
  | .poly => 0x004
  | .msgcap => 0x008
  | .bytecap => 0x00C
  | .cmd => 0x010
  | .status => 0x014
  | .mlen => 0x018
  | .clen => 0x01C
  | .blen => 0x020
  | .crcv => 0x024
  | .rcrc => 0x028

/-- The register at a word-aligned offset (R21, R60). -/
def regAt : Nat → Option Reg
  | 0x000 => some .cfg
  | 0x004 => some .poly
  | 0x008 => some .msgcap
  | 0x00C => some .bytecap
  | 0x010 => some .cmd
  | 0x014 => some .status
  | 0x018 => some .mlen
  | 0x01C => some .clen
  | 0x020 => some .blen
  | 0x024 => some .crcv
  | 0x028 => some .rcrc
  | _ => none

/-- What a host offset names. -/
inductive Target where
  | reg (r : Reg)
  /-- Word `w` of the BYTES window. -/
  | window (w : Nat)
  | unmapped
  deriving DecidableEq, Repr

/-- The first offset of the BYTES window (R60). -/
def windowBase : Nat := 0x1000

/-- The first offset above the BYTES window (R62). -/
def windowEnd (p : Params) : Nat := windowBase + 4 * ceilDiv (byteCap p) 4

/-- Offset bits 1:0 are ignored (R61): the access goes to a register, a window word, or nothing (R62, R64). -/
def target (p : Params) (off : Nat) : Target :=
  let o := off - off % 4
  match regAt o with
  | some r => .reg r
  | none =>
    if windowBase ≤ o ∧ o < windowEnd p then .window ((o - windowBase) / 4) else .unmapped

/-! ### Reads -/

/-- CFG (R22): K in bits 4:0, HAS_FLIP in bit 8, all else 0. -/
def cfgWord (p : Params) : Word :=
  (0#23 ++ BitVec.ofBool p.hasFlip ++ 0#3 ++ BitVec.ofNat 5 (paramK p) : BitVec 32)

/-- What a read of a register returns (R21 to R26, R31 to R35); CMD reads 0 (R27). -/
def regValue (s : State) : Reg → Word
  | .cfg => cfgWord s.params
  | .poly => seqWord s.params.P
  | .msgcap => BitVec.ofNat 32 s.params.msgBytes
  | .bytecap => BitVec.ofNat 32 (byteCap s.params)
  | .cmd => 0
  | .status => statusWord s
  | .mlen => lengthWord (BitVec.ofNat 28 s.mlen)
  | .clen => lengthWord (BitVec.ofNat 28 s.clen)
  | .blen => lengthWord s.blen
  | .crcv => s.crcv
  | .rcrc => s.rcrc

/-- One lane of a window read: the cell, or 0x00 at and above BYTE_CAP (R62). -/
def laneByte (s : State) (j : Nat) : Byte := if j < byteCap s.params then memRead s j else 0

/-- Window word `w`: lane L, bits 8L+7:8L, is BYTES[4w + L] (R62, R67). -/
def windowWord (s : State) (w : Nat) : Word :=
  (laneByte s (4 * w + 3) ++ laneByte s (4 * w + 2) ++ laneByte s (4 * w + 1) ++
    laneByte s (4 * w) : BitVec 32)

/-- What a BusRead returns; an unmapped offset reads 0 (R64). -/
def busValue (s : State) (off : Nat) : Word :=
  match target s.params off with
  | .reg r => regValue s r
  | .window w => windowWord s w
  | .unmapped => 0

/-- The reads R241 forbids while BUSY = 1: the window, MLEN, CLEN, BLEN, CRCV and RCRC. -/
def readHazard : Target → Bool
  | .reg .mlen | .reg .clen | .reg .blen | .reg .crcv | .reg .rcrc => true
  | .window _ => true
  | .reg .cfg | .reg .poly | .reg .msgcap | .reg .bytecap | .reg .cmd | .reg .status => false
  | .unmapped => false

/-- The draws a read uses up: a window read may show cells that nothing has written (R231, log 3). -/
def readDraws : Target → Nat
  | .window _ => 1
  | .reg _ => 0
  | .unmapped => 0

/-- BusRead (R61), of which `view` is recorded (R98). Reads have no other effect (R71). -/
def busRead (s : State) (off : Nat) (view : Word → Word) : Host.Outcome State Fault Refusal :=
  if s.busy && readHazard (target s.params off) then .fault (.busyHazard off)
  else
    .next { s with
      record := s.record ++ [view (busValue s off)]
      draws := s.draws + readDraws (target s.params off) }

/-- Lane `lane` of a word (R61, R98 `rdb`). -/
def laneOf (lane : Fin 4) (v : Word) : Word := (v.extractLsb' (8 * lane.val) 8).setWidth 32

/-! ### Writes -/

/-- All four lanes strobed. -/
def fullStrobe : BitVec 4 := 0b1111

/-- A write to CMD (R27, R63): a full-word write issues a command while BUSY = 0 and is dropped while BUSY = 1; any
other strobe does nothing. -/
def writeCmd (s : State) (v : Word) (strb : BitVec 4) : State :=
  if strb = fullStrobe then (if s.busy then dropCommand s else accept s v) else s

/-- A write to BLEN while BUSY = 0 (R35, R63): taken when full-word and at most BYTE_CAP, ignored otherwise (D16). -/
def writeBlen (s : State) (v : Word) (strb : BitVec 4) : State :=
  if strb = fullStrobe ∧ v.toNat ≤ byteCap s.params then { s with blen := v.setWidth 28 } else s

/-- A write of one lane of window word `w` (R62): done when strobed and below BYTE_CAP. -/
def writeLane (p : Params) (w : Nat) (v : Word) (strb : BitVec 4) (m : Memory) (lane : Nat) : Memory :=
  if strb.getLsbD lane = true ∧ 4 * w + lane < byteCap p then
    memSet m (4 * w + lane) (v.extractLsb' (8 * lane) 8)
  else m

/-- A write to window word `w` (R62). -/
def writeWindow (s : State) (w : Nat) (v : Word) (strb : BitVec 4) : State :=
  { s with bytes := (List.range 4).foldl (writeLane s.params w v strb) s.bytes }

/-- BusWrite (R61). Writes to read-only registers and unmapped offsets are ignored (R21, R63, R64). Any write to BLEN's
offset or to the window while BUSY = 1 is the hazard of R241 (log 5). -/
def busWrite (s : State) (off : Nat) (v : Word) (strb : BitVec 4) :
    Host.Outcome State Fault Refusal :=
  match target s.params off with
  | .reg .cmd => .next (writeCmd s v strb)
  | .reg .blen => if s.busy then .fault (.busyHazard off) else .next (writeBlen s v strb)
  | .window w => if s.busy then .fault (.busyHazard off) else .next (writeWindow s w v strb)
  | .reg .cfg | .reg .poly | .reg .msgcap | .reg .bytecap | .reg .status => .next s
  | .reg .mlen | .reg .clen | .reg .crcv | .reg .rcrc => .next s
  | .unmapped => .next s

/-! ### One move from outside -/

/-- One input, already taken off the list. `wait` polls STATUS once and stays at the head while BUSY = 1 (R98). -/
def perform (s : State) : Input → Host.Outcome State Fault Refusal
  | .read off => busRead s off id
  | .readLane off lane => busRead s off (laneOf lane)
  | .write off v strb => busWrite s off v strb
  | .wait =>
    if (statusWord s).getLsbD 0 then .next { s with inputs := .wait :: s.inputs } else .next s
  | .reset => .next (platformReset s)

/-- The host's next move, or none when its sequence is exhausted (R18; the block then keeps its state, R217). -/
def hostMove (s : State) : Host.Outcome State Fault Refusal :=
  match s.inputs with
  | [] => .next s
  | i :: rest => perform { s with inputs := rest } i

end Sys2Proof.Machine
end

