-- ==== Sys2Proof/Machine/BitCodec.lean ====
section
/-! DEFINITION. BitCodec.lean: ENCODE, PACK, UNPACK, DECODE (40_bitcodec.md). -/

namespace Sys2Proof.Machine

/-- ENCODE (R110): MBUF <- the bits of BYTES[0..BLEN). -/
def execEncode (s : State) : Host.Outcome State Fault Refusal :=
  let n := s.blen.toNat
  if maxM s.params < 8 * n then .next (raise s .capacity)
  else .next (complete { s with mbuf := readBits s n })

/-- PACK (R114): BYTES[0..⌈CLEN/8⌉) <- CBUF, the last byte padded with zeros; BLEN <- ⌈CLEN/8⌉. -/
def execPack (s : State) : Host.Outcome State Fault Refusal := storeBytes s (packBytes s.cbuf)

/-- UNPACK b (R118): CBUF <- the first b bits of BYTES[0..BLEN). Capacity is checked before the length (R207), and the
length by C1's reading of the document. -/
def execUnpack (bitCount : Arg) (s : State) : Host.Outcome State Fault Refusal :=
  let b := bitCount.toNat
  if cCap s.params < b then .next (raise s .capacity)
  else if ceilDiv b 8 ≠ s.blen.toNat then .next (raise s .lengthMismatch)
  else .next (complete { s with cbuf := slice (readBits s s.blen.toNat) 0 b })

/-- DECODE (R122): BYTES[0..⌊MLEN/8⌋) <- MBUF's whole bytes; BLEN <- ⌊MLEN/8⌋. -/
def execDecode (s : State) : Host.Outcome State Fault Refusal := storeBytes s (wholeBytes s.mbuf)

end Sys2Proof.Machine
end

