-- ==== Sys2Proof/Machine/Control.lean ====
section
/-! DEFINITION. Control.lean: NOP and CLEAR (44_control.md). -/

namespace Sys2Proof.Machine

/-- NOP (R190): completes; like every command but a successful VERIFY it clears the verdict bits (R29). -/
def execNop (s : State) : Host.Outcome State Fault Refusal := .next (complete s)

/-- CLEAR (R192): lengths, CRCV, RCRC and all of STATUS go to 0. BYTES keeps its bytes; MBUF's and CBUF's cells become
unobservable, so their valid sequences become empty (R36, R37). -/
def execClear (s : State) : Host.Outcome State Fault Refusal :=
  .next (completeClear { s with mbuf := [], cbuf := [], blen := 0, crcv := 0, rcrc := 0 })

end Sys2Proof.Machine
end

