-- ==== Sys2Proof/Machine/Crc.lean ====
section
/-! DEFINITION. Crc.lean: the division and its commands CRC and VERIFY (41_crc.md). -/

namespace Sys2Proof.Machine

/-- "if W[0] == 1: W = W ⊕ P" (R140). -/
def reduceWindow (P W : Bits) : Bits := if W.head? = some true then xorBits W P else W

/-- The loop of R140, on the window and the bits of D not yet pulled in. -/
def remLoop (P : Bits) : Bits → Bits → Bits
  | W, [] => (reduceWindow P W).drop 1
  | W, d :: ds => remLoop P ((reduceWindow P W).drop 1 ++ [d]) ds

/-- rem(s): the K-bit remainder of the sliding-window division (R140), K zeros for the empty message (R141, C6). -/
def rem (p : Params) (s : Bits) : Bits :=
  if s = [] then zeros (paramK p)
  else
    let d := s ++ zeros (paramK p)
    remLoop p.P (d.take (paramK p + 1)) (d.drop (paramK p + 1))

/-- One message bit of the bit-serial form (R144). -/
def serialStep (P R : Bits) (b : Bool) : Bits :=
  let shifted := R.drop 1 ++ [false]
  if xor (R.headD false) b then xorBits shifted (P.drop 1) else shifted

/-- The bit-serial form of the division (R144). CRC and VERIFY are defined by `rem`; that the two agree is a
statement. -/
def remSerial (p : Params) (s : Bits) : Bits := s.foldl (serialStep p.P) (zeros (paramK p))

/-- CRC (R142): CRCV <- the remainder of MBUF. -/
def execCrc (s : State) : Host.Outcome State Fault Refusal :=
  .next (complete { s with crcv := seqWord (rem s.params s.mbuf) })

/-- VERIFY (R145, R146): CRCV <- the remainder of MBUF; the verdict is its equality with RCRC's K bits. -/
def execVerify (s : State) : Host.Outcome State Fault Refusal :=
  let c := rem s.params s.mbuf
  .next (completeVerdict { s with crcv := seqWord c } (c == valSeq (paramK s.params) s.rcrc))

end Sys2Proof.Machine
end

