-- ==== Sys2Proof/Machine/ErrorSim.lean ====
section
/-! DEFINITION. ErrorSim.lean: the optional error-injection command FLIP (43_errorsim.md). -/

namespace Sys2Proof.Machine

/-- FLIP i (R180): CBUF[i] <- CBUF[i] ⊕ 1; IllegalCommand in a build without FLIP (R94, log 15), InvalidBitIndex when
i ≥ CLEN (C4). -/
def execFlip (bitIndex : Arg) (s : State) : Host.Outcome State Fault Refusal :=
  let i := bitIndex.toNat
  if s.params.hasFlip = false then .next (raise s .illegalCommand)
  else if s.clen ≤ i then .next (raise s .invalidBitIndex)
  else .next (complete { s with cbuf := s.cbuf.modify i (fun b => xor b true) })

end Sys2Proof.Machine
end

