-- ==== Sys2Proof/Machine/Frame.lean ====
section
/-! DEFINITION. Frame.lean: the frame builder's ASSEMBLE and SPLIT (42_frame.md). -/

namespace Sys2Proof.Machine

/-- ASSEMBLE (R160): CBUF <- MBUF followed by CRCV's K bits, taken as they stand. -/
def execAssemble (s : State) : Host.Outcome State Fault Refusal :=
  .next (complete { s with cbuf := s.mbuf ++ valSeq (paramK s.params) s.crcv })

/-- SPLIT m (R162): MBUF <- the first m bits of CBUF, RCRC <- the K bits after them; m + K must be CLEN (C3). -/
def execSplit (messageLen : Arg) (s : State) : Host.Outcome State Fault Refusal :=
  let m := messageLen.toNat
  let k := paramK s.params
  if m + k ≠ s.clen then .next (raise s .lengthMismatch)
  else .next (complete { s with mbuf := slice s.cbuf 0 m, rcrc := seqWord (slice s.cbuf m (m + k)) })

end Sys2Proof.Machine
end

