-- ==== Sys2Proof/Machine/Dispatch.lean ====
section
/-! DEFINITION. Dispatch.lean: each command's meaning: what its completion does (60_exceptions.md rule R202). -/

namespace Sys2Proof.Machine

/-- The completion of an accepted command (R202), from the state at acceptance (R205). -/
def exec (i : Instr) (s : State) : Host.Outcome State Fault Refusal :=
  match i with
  | .nop => Sys2Proof.Machine.execNop s
  | .encode => Sys2Proof.Machine.execEncode s
  | .pack => Sys2Proof.Machine.execPack s
  | .unpack b => Sys2Proof.Machine.execUnpack b s
  | .decode => Sys2Proof.Machine.execDecode s
  | .crc => Sys2Proof.Machine.execCrc s
  | .verify => Sys2Proof.Machine.execVerify s
  | .assemble => Sys2Proof.Machine.execAssemble s
  | .split m => Sys2Proof.Machine.execSplit m s
  | .flip k => Sys2Proof.Machine.execFlip k s
  | .clear => Sys2Proof.Machine.execClear s

end Sys2Proof.Machine
end

