-- ==== Sys2Proof/Machine/Sequencer.lean ====
section
/-! DEFINITION. Sequencer.lean: who moves next, and the CORE's completion of the in-flight command (00_scope.md rule R8,
60_exceptions.md rules R202, R205, 70_reset_and_hazards.md rule R243). -/

namespace Sys2Proof.Machine

/-- The completion of an accepted word (R202): its command's, or IllegalCommand when it decodes to none (R93). -/
def completeWord (w : Word) (s : State) : Host.Outcome State Fault Refusal :=
  match decode s.params.hasFlip w with
  | .ok i => exec i s
  | .error _ => .next (raise s .illegalCommand)

/-- With a command in flight: the CORE completes it when no move of the host is left before the completion; else the
host moves and one fewer is left (R243, log 2). -/
def busyTurn (c : InFlight) (s : State) : Host.Outcome State Fault Refusal :=
  match c.left with
  | 0 => completeWord c.word s
  | n + 1 => hostMove { s with inflight := some { c with left := n } }

/-- One turn: the host's while the block is idle, `busyTurn` while a command is in flight. -/
def turn (s : State) : Host.Outcome State Fault Refusal :=
  match s.inflight with
  | none => hostMove s
  | some c => busyTurn c s

end Sys2Proof.Machine
end

