-- ==== Sys2Proof/Machine/Step.lean ====
section
/-! DEFINITION. Step.lean: one step of the machine, and how a command word is put where the next step takes it from. -/

namespace Sys2Proof.Machine

/-- One step. A configuration outside R9 and R11 is refused (U12, log 1). -/
def step (s : State) : Host.Outcome State Fault Refusal :=
  if legalParams s.params then turn s else .refused .illegalConfiguration

/-- `s` with the word as an accepted command whose completion is the very next step (log 13). -/
def State.withFetchWord (s : State) (nbits w : Nat) : State :=
  { s with inflight := some { word := tableWord nbits w, left := 0 } }

end Sys2Proof.Machine
end

