-- ==== Sys2Proof/Machine/Assembler.lean ====
section
/-! DEFINITION. Assembler.lean: the command syntax, the host statements and the pseudo-instructions of 30_encoding.md
(rules R97 to R99), as functions to the host accesses they stand for. -/

namespace Sys2Proof.Machine

/-! ### Statements and their expansions -/

/-- A command line, a host statement of R98, or a pseudo-instruction of R99. -/
inductive Stmt where
  | command (i : Instr)
  | wr (r : Reg) (v : Word)
  | rd (r : Reg)
  | wrb (j : Nat) (v : Byte)
  | rdb (j : Nat)
  | wait
  | loadText (s : List Byte)
  | txFrame
  | rxCheck (m : Nat)
  | corrupt (i : Arg)
  deriving DecidableEq, Repr

/-- The operand of a command: a numeral from 0 to 2^28 − 1; the assembler refuses any other (R97). -/
def argOf (n : Nat) : Option Arg := if n < 2 ^ 28 then some (BitVec.ofNat 28 n) else none

/-- `wr <REG>, <v>` (R98). -/
def wrInput (r : Reg) (v : Word) : Input := .write (regOffset r) v fullStrobe

/-- The offset of the window word that holds byte `j` (R98). -/
def byteOffset (j : Nat) : Nat := windowBase + 4 * (j / 4)

/-- `wrb <j>, <v>` (R98): write byte v at BYTES[j]. -/
def wrbInput (j : Nat) (v : Byte) : Input :=
  .write (byteOffset j) (v.setWidth 32 <<< (8 * (j % 4))) (1#4 <<< (j % 4))

/-- `rdb <j>` (R98): lane j mod 4 of the word that holds byte j. -/
def rdbInput (j : Nat) : Input := .readLane (byteOffset j) ⟨j % 4, Nat.mod_lt j (by decide)⟩

/-- A command line stands for the pair `wr CMD, <word>` and `wait` (R97). -/
def commandInputs (i : Instr) : List Input := [wrInput .cmd (encode i), .wait]

/-- LOADTEXT from byte index `j` on (R99). -/
def textInputs : Nat → List Byte → List Input
  | _, [] => []
  | j, v :: vs => wrbInput j v :: textInputs (j + 1) vs

/-- What a statement stands for, in a build with this K; none where the assembler refuses it (R97 to R99).
DESIGN CHOICE (log 16): R99's `wr BLEN, len(s)` writes a 32-bit value, and the spec does not say what LOADTEXT does with
a text of 2^32 or more characters; here it writes len(s) mod 2^32, and no such text is refused. -/
def expand (k : Nat) : Stmt → Option (List Input)
  | .command i => some (commandInputs i)
  | .wr r v => some [wrInput r v]
  | .rd r => some [.read (regOffset r)]
  | .wrb j v => some [wrbInput j v]
  | .rdb j => some [rdbInput j]
  | .wait => some [.wait]
  | .loadText s => some (textInputs 0 s ++ [wrInput .blen (BitVec.ofNat 32 s.length)])
  | .txFrame => some ([Instr.encode, .crc, .assemble, .pack].flatMap commandInputs)
  | .rxCheck m =>
    match argOf (m + k), argOf m with
    | some b, some a => some ([Instr.unpack b, .split a, .verify].flatMap commandInputs)
    | _, _ => none
  | .corrupt i => some (commandInputs (.flip i))

/-- A sequence of statements; none if the assembler refuses one of them. -/
def expandAll (k : Nat) : List Stmt → Option (List Input)
  | [] => some []
  | t :: ts =>
    match expand k t, expandAll k ts with
    | some a, some b => some (a ++ b)
    | _, _ => none

/-! ### The text of a command line (R97) -/

/-- The line without its comment: `;` starts a comment. -/
def stripComment (line : List Char) : List Char := line.takeWhile (fun c => c ≠ ';')

/-- A blank between words (log 16). -/
def isBlank (c : Char) : Bool := c = ' ' || c = '\t'

/-- The words of a line; `w` is the word read so far, in order. -/
def wordsFrom (w : List Char) : List Char → List (List Char)
  | [] => if w = [] then [] else [w]
  | c :: cs =>
    if isBlank c then (if w = [] then wordsFrom [] cs else w :: wordsFrom [] cs)
    else wordsFrom (w ++ [c]) cs

/-- The value of a digit, decimal or hexadecimal of either case. -/
def digitValue (c : Char) : Option Nat :=
  let n := c.toNat
  if 48 ≤ n ∧ n ≤ 57 then some (n - 48)
  else if 65 ≤ n ∧ n ≤ 70 then some (n - 55)
  else if 97 ≤ n ∧ n ≤ 102 then some (n - 87)
  else none

/-- The value of a string of digits in a base, read on from `acc`. -/
def digits (base : Nat) : Nat → List Char → Option Nat
  | acc, [] => some acc
  | acc, c :: cs =>
    match digitValue c with
    | some d => if d < base then digits base (base * acc + d) cs else none
    | none => none

/-- A decimal numeral or a `0x` hexadecimal numeral. -/
def numeral : List Char → Option Nat
  | [] => none
  | ['0', 'x'] => none
  | '0' :: 'x' :: cs => digits 16 0 cs
  | cs => digits 10 0 cs

/-- The capital of an ASCII letter: mnemonics are case-insensitive. -/
def capital (c : Char) : Char := if 97 ≤ c.toNat ∧ c.toNat ≤ 122 then Char.ofNat (c.toNat - 32) else c

/-- The commands that take no operand. -/
def plainMnemonics : List (List Char × Instr) :=
  [(['N', 'O', 'P'], .nop), (['E', 'N', 'C', 'O', 'D', 'E'], .encode), (['P', 'A', 'C', 'K'], .pack),
   (['D', 'E', 'C', 'O', 'D', 'E'], .decode), (['C', 'R', 'C'], .crc),
   (['V', 'E', 'R', 'I', 'F', 'Y'], .verify),
   (['A', 'S', 'S', 'E', 'M', 'B', 'L', 'E'], .assemble), (['C', 'L', 'E', 'A', 'R'], .clear)]

/-- The command of a mnemonic that takes an operand. -/
def operandCommand (m : List Char) (a : Arg) : Option Instr :=
  if m = ['U', 'N', 'P', 'A', 'C', 'K'] then some (.unpack a)
  else if m = ['S', 'P', 'L', 'I', 'T'] then some (.split a)
  else if m = ['F', 'L', 'I', 'P'] then some (.flip a)
  else none

/-- A command line (R97): `some none` for a line with no command on it, none where the assembler refuses: an unknown
mnemonic, an operand on a command that takes none, a missing operand, a numeral outside 0 to 2^28 − 1. -/
def parseCommand (line : List Char) : Option (Option Instr) :=
  match wordsFrom [] (stripComment line) with
  | [] => some none
  | [m] => (plainMnemonics.lookup (m.map capital)).map some
  | [m, n] =>
    match (numeral n).bind argOf with
    | some a => (operandCommand (m.map capital) a).map some
    | none => none
  | _ => none

/-- The host accesses of a command line. -/
def assembleLine (line : List Char) : Option (List Input) :=
  match parseCommand line with
  | some (some i) => some (commandInputs i)
  | some none => some []
  | none => none

end Sys2Proof.Machine
end

