-- ==== Sys2Proof/Safety.lean ====
section
/-! DEFINITION. Safety.lean: the terms claims are stated in: the invariants of 10_state.md rule R39, the end of a run and
its observation (00_scope.md rule R18), and what counts as a state with no fault recorded (R30). -/

namespace Sys2Proof.Machine

/-- The state a step answers, if it answers one. -/
def nextState? (o : Host.Outcome State Fault Refusal) : Option State :=
  match o with
  | .next s => some s
  | .fault _ => none
  | .refused _ => none

/-- The invariants of R39, with the legality of the build (R9, R11) and the canonical form of BYTES, whose indices are
below BYTE_CAP (R38). MLEN and CLEN are the lengths of the sequences they measure, and BUSY is 1 exactly while a command
is in flight, by the form of State. -/
structure State.Inv (s : State) : Prop where
  legal : legalParams s.params = true
  mlen_le : s.mlen ≤ maxM s.params
  clen_le : s.clen ≤ cCap s.params
  blen_le : s.blen.toNat ≤ byteCap s.params
  crcv_lt : s.crcv.toNat < 2 ^ paramK s.params
  rcrc_lt : s.rcrc.toNat < 2 ^ paramK s.params
  verdict : s.vmatch = true → s.vdone = true
  bytes_wf : Memory.wf s.bytes
  bytes_lt : ∀ c ∈ s.bytes, c.1 < byteCap s.params

/-- The data state of R201: what an error leaves unchanged. -/
def sameData (s t : State) : Prop :=
  t.mbuf = s.mbuf ∧ t.cbuf = s.cbuf ∧ t.bytes = s.bytes ∧ t.blen = s.blen ∧ t.crcv = s.crcv ∧
    t.rcrc = s.rcrc

/-- What no completion touches: the build and the host's side (R11, R72). -/
def sameHostSide (s t : State) : Prop :=
  t.params = s.params ∧ t.inputs = s.inputs ∧ t.record = s.record

/-- A completion without error by a command other than VERIFY (R29, R30, R202): ERR and the verdict bits go to 0, the
sticky bits are kept, BUSY goes to 0, the host's side is not touched. -/
def completedOk (s t : State) : Prop :=
  t.err = .none ∧ t.vdone = false ∧ t.vmatch = false ∧ t.errSticky = s.errSticky ∧
    t.cmdLost = s.cmdLost ∧ t.busy = false ∧ sameHostSide s t

/-- A completion with error `e` (R201): no data state changes; ERR is the code, ERRSTICKY goes to 1, the verdict bits and
BUSY go to 0; CMDLOST and the host's side are kept. -/
def completedError (s t : State) (e : ErrCode) : Prop :=
  sameData s t ∧ t.err = e ∧ t.errSticky = true ∧ t.vdone = false ∧ t.vmatch = false ∧
    t.cmdLost = s.cmdLost ∧ t.busy = false ∧ sameHostSide s t

/-- STATUS but for BUSY: the fields that R28 keeps while a command is in flight. -/
def sameStatus (s t : State) : Prop :=
  t.err = s.err ∧ t.vdone = s.vdone ∧ t.vmatch = s.vmatch ∧ t.errSticky = s.errSticky ∧
    t.cmdLost = s.cmdLost

/-- OP of a command word, as a number (R90). -/
def opOf (w : Word) : Nat := w.toNat / 2 ^ 28

/-- ARG of a command word, as a number (R90, R91). -/
def argNatOf (w : Word) : Nat := w.toNat % 2 ^ 28

/-- The words R94 and R95 make illegal, in a build with this HAS_FLIP. -/
def IllegalWord (hasFlip : Bool) (w : Word) : Prop :=
  (10 ≤ opOf w ∧ opOf w ≤ 14) ∨ (opOf w = 9 ∧ hasFlip = false) ∨
    (opOf w ∈ [0, 1, 2, 4, 5, 6, 7, 15] ∧ argNatOf w ≠ 0)

/-- The word index of the unmapped offsets (R64): 0x02C to 0xFFF, and at or above the end of the window. -/
def UnmappedWord (p : Params) (q : Nat) : Prop :=
  (11 ≤ q ∧ q < 1024) ∨ 1024 + (byteCap p + 3) / 4 ≤ q

/-- The word index of an offset in the BYTES window (R62). -/
def WindowWord (p : Params) (q : Nat) : Prop := 1024 ≤ q ∧ q < 1024 + (byteCap p + 3) / 4

/-- "no fault recorded": ERRSTICKY = 0 ∧ CMDLOST = 0 (R30). -/
def noFaultRecorded (s : State) : Prop := s.errSticky = false ∧ s.cmdLost = false

/-- The end of a run (R18): the host's sequence is exhausted and BUSY = 0. -/
def ended (s : State) : Prop := s.inputs = [] ∧ s.busy = false

/-- The observation at the end of a run (R18): every register, and BYTES[0..BYTE_CAP), a cell that nothing has written
showing no value. -/
def observation (s : State) : List Word × List (Option Byte) :=
  ([Reg.cfg, .poly, .msgcap, .bytecap, .cmd, .status, .mlen, .clen, .blen, .crcv, .rcrc].map (regValue s),
    (List.range (byteCap s.params)).map (memGet s.bytes))

/-- A read while BUSY = 0 that records `v` (R71, R98): the host's list loses the access and its record gains `v`; the
observation, the data state, STATUS and the build stay, and with no cell of BYTES unwritten every later read returns what
it would have returned before. -/
def readDone (s t : State) (v : Word) (rest : List Input) : Prop :=
  t.record = s.record ++ [v] ∧ t.inputs = rest ∧ observation t = observation s ∧ sameData s t ∧
    sameStatus s t ∧ t.busy = false ∧ t.params = s.params ∧
    ((∀ j, j < byteCap s.params → memGet s.bytes j ≠ none) → ∀ o, busValue t o = busValue s o)

/-- A machine whose next `n` steps stop nowhere: the host keeps the hazard rules of R241 for that long. -/
def safeFor : Nat → State → Prop
  | 0, _ => True
  | n + 1, s => ∃ t, step s = .next t ∧ safeFor n t

end Sys2Proof.Machine
end

