-- ==== Sys2Proof/Certificates/Slice0/Obligations.lean ====
section
/-! DEFINITION. Obligations.lean: the statements for the provers, from the spec's numbered rules. Offsets are written by
their word index off / 4 (R61): CFG 0, POLY 1, MSGCAP 2, BYTECAP 3, CMD 4, STATUS 5, MLEN 6, CLEN 7, BLEN 8, CRCV 9,
RCRC 10, the window from 1024 on (R21). -/

open Sys2Proof Sys2Proof.Machine

/-! ### Encoding (30_encoding.md) -/

/-- Command words written out from the OP and ARG columns of R92, and the examples of R95. -/
def Obligations.SpecWordsDecode : Prop :=
  decode true 0x00000000#32 = .ok .nop ∧ decode true 0x10000000#32 = .ok .encode ∧
  decode true 0x20000000#32 = .ok .pack ∧ decode true 0x3000004B#32 = .ok (.unpack 75#28) ∧
  decode true 0x40000000#32 = .ok .decode ∧ decode true 0x50000000#32 = .ok .crc ∧
  decode true 0x60000000#32 = .ok .verify ∧ decode true 0x70000000#32 = .ok .assemble ∧
  decode true 0x80000048#32 = .ok (.split 72#28) ∧ decode true 0x90000005#32 = .ok (.flip 5#28) ∧
  decode true 0xF0000000#32 = .ok .clear ∧ decode false 0x90000005#32 = .error .flipAbsent ∧
  decode true 0x10000001#32 = .error (.argNotZero 1#4 1#28) ∧
  decode true 0xA0000000#32 = .error (.reservedOp 0xA#4)

/-- R90 to R93: decoding a command's word gives the command back, with every operand. -/
def Obligations.DecodeInvertsEncode : Prop :=
  ∀ (hasFlip : Bool) (i : Instr), WellFormed hasFlip i = true → decode hasFlip (encode i) = .ok i

/-- R93: a word that decodes to a command is that command's one word, and the build has the command. -/
def Obligations.EncodeInvertsDecode : Prop :=
  ∀ (hasFlip : Bool) (w : Word) (i : Instr), decode hasFlip w = .ok i →
    encode i = w ∧ WellFormed hasFlip i = true

/-- R93 to R95: the words the decoder rejects are exactly those with a reserved OP, FLIP in a build without it, and a
non-zero ARG on a command that takes none. -/
def Obligations.RejectedWordsExactly : Prop :=
  ∀ (hasFlip : Bool) (w : Word), (∃ r, decode hasFlip w = .error r) ↔ IllegalWord hasFlip w

/-- R94 (and R95): an accepted illegal word completes with ERR = IllegalCommand, code 3, and no other effect. -/
def Obligations.IllegalWordCompletesWithCode3 : Prop :=
  ∀ (s : State) (w : Word), legalParams s.params = true → s.inflight = some ⟨w, 0⟩ →
    IllegalWord s.params.hasFlip w →
    ∃ t, step s = .next t ∧ completedError s t .illegalCommand ∧ errValue t.err = 3#4

/-! ### What each command does when it completes without error -/

/-- R190. -/
def Obligations.NopOnlyCompletes : Prop :=
  ∀ s : State, ∃ t, exec .nop s = .next t ∧ completedOk s t ∧ sameData s t

/-- R110: MBUF is the bits of BYTES[0..BLEN), each byte MSB first; MLEN = 8·BLEN. -/
def Obligations.EncodeWritesMessageBits : Prop :=
  ∀ s : State, 8 * s.blen.toNat ≤ maxM s.params →
    ∃ t, exec .encode s = .next t ∧ completedOk s t ∧ t.mlen = 8 * s.blen.toNat ∧
      (∀ j k, j < s.blen.toNat → k < 8 →
        t.mbuf[8 * j + k]? = some ((memRead s j).getLsbD (7 - k))) ∧
      t.cbuf = s.cbuf ∧ t.bytes = s.bytes ∧ t.blen = s.blen ∧ t.crcv = s.crcv ∧ t.rcrc = s.rcrc

/-- R115 (R68, R114): BYTES[0..BLEN) is the minimal number of whole bytes, MSB first, unused low-order bits of the last
byte zero; the other bytes are unchanged. -/
def Obligations.PackWritesWireBytes : Prop :=
  ∀ s : State, legalParams s.params = true → s.clen ≤ cCap s.params →
    ∃ t, exec .pack s = .next t ∧ completedOk s t ∧ t.blen.toNat = (s.clen + 7) / 8 ∧
      (∀ j k, j < (s.clen + 7) / 8 → k < 8 →
        ∃ v, memGet t.bytes j = some v ∧ v.getLsbD (7 - k) = (s.cbuf[8 * j + k]?).getD false) ∧
      (∀ j, (s.clen + 7) / 8 ≤ j → memGet t.bytes j = memGet s.bytes j) ∧
      t.mbuf = s.mbuf ∧ t.cbuf = s.cbuf ∧ t.crcv = s.crcv ∧ t.rcrc = s.rcrc

/-- R118: CBUF is the first b bits of BYTES[0..BLEN), padding dropped unchecked; CLEN = b. -/
def Obligations.UnpackReadsCodewordBits : Prop :=
  ∀ (s : State) (b : Arg), b.toNat ≤ cCap s.params → (b.toNat + 7) / 8 = s.blen.toNat →
    ∃ t, exec (.unpack b) s = .next t ∧ completedOk s t ∧ t.clen = b.toNat ∧
      (∀ i, i < b.toNat → t.cbuf[i]? = some ((memRead s (i / 8)).getLsbD (7 - i % 8))) ∧
      t.mbuf = s.mbuf ∧ t.bytes = s.bytes ∧ t.blen = s.blen ∧ t.crcv = s.crcv ∧ t.rcrc = s.rcrc

/-- R122: BYTES[0..⌊MLEN/8⌋) is MBUF's whole bytes, MSB first, the remainder bits dropped without error. -/
def Obligations.DecodeWritesWholeBytes : Prop :=
  ∀ s : State, legalParams s.params = true → s.mlen ≤ maxM s.params →
    ∃ t, exec .decode s = .next t ∧ completedOk s t ∧ t.blen.toNat = s.mlen / 8 ∧
      (∀ j k, j < s.mlen / 8 → k < 8 →
        ∃ v, memGet t.bytes j = some v ∧ s.mbuf[8 * j + k]? = some (v.getLsbD (7 - k))) ∧
      (∀ j, s.mlen / 8 ≤ j → memGet t.bytes j = memGet s.bytes j) ∧
      t.mbuf = s.mbuf ∧ t.cbuf = s.cbuf ∧ t.crcv = s.crcv ∧ t.rcrc = s.rcrc

/-- R142, R31: bit K−1−i of CRCV is bit i of the remainder of MBUF, and CRCV[31:K] = 0. -/
def Obligations.CrcWritesRemainder : Prop :=
  ∀ s : State, legalParams s.params = true →
    ∃ t, exec .crc s = .next t ∧ completedOk s t ∧
      (∀ i, i < paramK s.params →
        (rem s.params s.mbuf)[i]? = some (t.crcv.getLsbD (paramK s.params - 1 - i))) ∧
      (∀ b, paramK s.params ≤ b → t.crcv.getLsbD b = false) ∧
      t.mbuf = s.mbuf ∧ t.cbuf = s.cbuf ∧ t.bytes = s.bytes ∧ t.blen = s.blen ∧ t.rcrc = s.rcrc

/-- R145, R146, R203: the verdict is exact equality of the recomputed remainder with RCRC's K bits; a mismatch is no
error. -/
def Obligations.VerifyComparesExactly : Prop :=
  ∀ s : State, legalParams s.params = true →
    ∃ t, exec .verify s = .next t ∧ t.err = .none ∧ t.vdone = true ∧
      (t.vmatch = true ↔ ∀ i, i < paramK s.params →
        (rem s.params s.mbuf)[i]? = some (s.rcrc.getLsbD (paramK s.params - 1 - i))) ∧
      (∀ i, i < paramK s.params →
        (rem s.params s.mbuf)[i]? = some (t.crcv.getLsbD (paramK s.params - 1 - i))) ∧
      (∀ b, paramK s.params ≤ b → t.crcv.getLsbD b = false) ∧
      t.errSticky = s.errSticky ∧ t.cmdLost = s.cmdLost ∧ t.busy = false ∧ sameHostSide s t ∧
      t.mbuf = s.mbuf ∧ t.cbuf = s.cbuf ∧ t.bytes = s.bytes ∧ t.blen = s.blen ∧ t.rcrc = s.rcrc

/-- R160: CBUF is MBUF followed by CRCV's K bits as they stand; CLEN = MLEN + K. -/
def Obligations.AssembleConcatenates : Prop :=
  ∀ s : State,
    ∃ t, exec .assemble s = .next t ∧ completedOk s t ∧ t.clen = s.mlen + paramK s.params ∧
      (∀ i, i < s.mlen → t.cbuf[i]? = s.mbuf[i]?) ∧
      (∀ i, i < paramK s.params →
        t.cbuf[s.mlen + i]? = some (s.crcv.getLsbD (paramK s.params - 1 - i))) ∧
      t.mbuf = s.mbuf ∧ t.bytes = s.bytes ∧ t.blen = s.blen ∧ t.crcv = s.crcv ∧ t.rcrc = s.rcrc

/-- R162: MBUF is the first m bits of CBUF and RCRC the K bits after them, RCRC[31:K] = 0. -/
def Obligations.SplitSeparates : Prop :=
  ∀ (s : State) (m : Arg), legalParams s.params = true → m.toNat + paramK s.params = s.clen →
    ∃ t, exec (.split m) s = .next t ∧ completedOk s t ∧ t.mlen = m.toNat ∧
      (∀ i, i < m.toNat → t.mbuf[i]? = s.cbuf[i]?) ∧
      (∀ i, i < paramK s.params →
        s.cbuf[m.toNat + i]? = some (t.rcrc.getLsbD (paramK s.params - 1 - i))) ∧
      (∀ b, paramK s.params ≤ b → t.rcrc.getLsbD b = false) ∧
      t.cbuf = s.cbuf ∧ t.bytes = s.bytes ∧ t.blen = s.blen ∧ t.crcv = s.crcv

/-- R180: exactly one bit of CBUF is inverted; CLEN and everything else is unchanged. -/
def Obligations.FlipInvertsOneBit : Prop :=
  ∀ (s : State) (i : Arg), s.params.hasFlip = true → i.toNat < s.clen →
    ∃ t, exec (.flip i) s = .next t ∧ completedOk s t ∧ t.clen = s.clen ∧
      (∀ j, t.cbuf[j]? = if j = i.toNat then (s.cbuf[j]?).map not else s.cbuf[j]?) ∧
      t.mbuf = s.mbuf ∧ t.bytes = s.bytes ∧ t.blen = s.blen ∧ t.crcv = s.crcv ∧ t.rcrc = s.rcrc

/-- R192: the lengths, CRCV, RCRC and the whole of STATUS are 0; BYTES keeps its bytes. -/
def Obligations.ClearZeroesAllButBytes : Prop :=
  ∀ s : State, ∃ t, exec .clear s = .next t ∧ t.mlen = 0 ∧ t.clen = 0 ∧ t.blen = 0 ∧ t.crcv = 0 ∧
    t.rcrc = 0 ∧ statusWord t = 0 ∧ t.bytes = s.bytes ∧ sameHostSide s t

/-! ### Errors (60_exceptions.md) -/

/-- R110, R118, R162, R180, in the order of R207: each cause completes with its code and no data change. -/
def Obligations.ErrorCausesComplete : Prop :=
  (∀ s : State, maxM s.params < 8 * s.blen.toNat →
    ∃ t, exec .encode s = .next t ∧ completedError s t .capacity) ∧
  (∀ (s : State) (b : Arg), cCap s.params < b.toNat →
    ∃ t, exec (.unpack b) s = .next t ∧ completedError s t .capacity) ∧
  (∀ (s : State) (b : Arg), b.toNat ≤ cCap s.params → (b.toNat + 7) / 8 ≠ s.blen.toNat →
    ∃ t, exec (.unpack b) s = .next t ∧ completedError s t .lengthMismatch) ∧
  (∀ (s : State) (m : Arg), m.toNat + paramK s.params ≠ s.clen →
    ∃ t, exec (.split m) s = .next t ∧ completedError s t .lengthMismatch) ∧
  (∀ (s : State) (i : Arg), s.params.hasFlip = false →
    ∃ t, exec (.flip i) s = .next t ∧ completedError s t .illegalCommand) ∧
  (∀ (s : State) (i : Arg), s.params.hasFlip = true → s.clen ≤ i.toNat →
    ∃ t, exec (.flip i) s = .next t ∧ completedError s t .invalidBitIndex)

/-- R201: whatever word completes with an error, no data state changes and STATUS is as the rule says. -/
def Obligations.ErrorsKeepDataState : Prop :=
  ∀ (s t : State) (w : Word), completeWord w s = .next t → t.err ≠ .none → completedError s t t.err

/-- R200: which words complete with which code, and the codes' numbers. -/
def Obligations.ErrorCodesByCause : Prop :=
  (∀ (s t : State) (w : Word), completeWord w s = .next t →
    (t.err = .illegalCommand ↔ IllegalWord s.params.hasFlip w) ∧
    (t.err = .capacity ↔ (w = 0x10000000#32 ∧ maxM s.params < 8 * s.blen.toNat) ∨
      (opOf w = 3 ∧ cCap s.params < argNatOf w)) ∧
    (t.err = .lengthMismatch ↔
      (opOf w = 3 ∧ argNatOf w ≤ cCap s.params ∧ (argNatOf w + 7) / 8 ≠ s.blen.toNat) ∨
      (opOf w = 8 ∧ argNatOf w + paramK s.params ≠ s.clen)) ∧
    (t.err = .invalidBitIndex ↔ opOf w = 9 ∧ s.params.hasFlip = true ∧ s.clen ≤ argNatOf w)) ∧
  errValue .none = 0#4 ∧ errValue .lengthMismatch = 1#4 ∧ errValue .capacity = 2#4 ∧
    errValue .illegalCommand = 3#4 ∧ errValue .invalidBitIndex = 4#4

/-- R29: VDONE and VMATCH after any completion. -/
def Obligations.VerdictBitsAfterCompletion : Prop :=
  ∀ (s t : State) (w : Word), completeWord w s = .next t →
    (w = 0x60000000#32 → t.err = .none ∧ t.vdone = true ∧
      (t.vmatch = true ↔ rem s.params s.mbuf = valSeq (paramK s.params) s.rcrc)) ∧
    (w ≠ 0x60000000#32 → t.vdone = false ∧ t.vmatch = false)

/-- R30: ERRSTICKY and CMDLOST go back to 0 only through the completion of CLEAR, or through a reset that this step
performs (as one input of its own: log 8). -/
def Obligations.StickyBitsLeaveOnlyByClearOrReset : Prop :=
  ∀ s t : State, step s = .next t →
    (s.errSticky = true ∧ t.errSticky = false) ∨ (s.cmdLost = true ∧ t.cmdLost = false) →
    s.inflight = some ⟨0xF0000000#32, 0⟩ ∨
      ∃ rest, s.inputs = .reset :: rest ∧ t = platformReset { s with inputs := rest }

/-- R30, R206: CMDLOST is set only by a full-word write to CMD that is dropped because BUSY = 1. -/
def Obligations.CmdLostOnlyByDroppedWrite : Prop :=
  ∀ s t : State, step s = .next t → s.cmdLost = false → t.cmdLost = true →
    s.busy = true ∧ ∃ off v rest, off / 4 = 4 ∧ s.inputs = .write off v 0b1111#4 :: rest

/-- R202: in every state of R39, every word's completion answers a next state with BUSY = 0: no command can hang. -/
def Obligations.EveryWordCompletes : Prop :=
  ∀ (s : State) (w : Word), s.Inv → ∃ t, completeWord w s = .next t ∧ t.busy = false ∧ t.Inv

/-! ### Frames -/

/-- R41: which command writes which buffer and register, and that none writes another. -/
def Obligations.CommandsWriteOnlyTheirTargets : Prop :=
  ∀ (i : Instr) (s t : State), exec i s = .next t →
    sameHostSide s t ∧
    (t.mbuf ≠ s.mbuf → i = .encode ∨ i = .clear ∨ ∃ m, i = .split m) ∧
    (t.cbuf ≠ s.cbuf → i = .assemble ∨ i = .clear ∨ (∃ b, i = .unpack b) ∨ ∃ k, i = .flip k) ∧
    (t.blen ≠ s.blen → i = .pack ∨ i = .decode ∨ i = .clear) ∧
    (t.crcv ≠ s.crcv → i = .crc ∨ i = .verify ∨ i = .clear) ∧
    (t.rcrc ≠ s.rcrc → i = .clear ∨ ∃ m, i = .split m) ∧
    (t.cmdLost ≠ s.cmdLost → i = .clear) ∧
    (t.errSticky ≠ s.errSticky → i = .clear ∨ t.err ≠ .none)

/-- R41, R114, R122: PACK stores to BYTES[0..⌈CLEN/8⌉), DECODE to BYTES[0..⌊MLEN/8⌋), and no other command to any byte:
every byte outside reads as before. -/
def Obligations.CommandsStoreOnlyTheirBytes : Prop :=
  ∀ (i : Instr) (s t : State), exec i s = .next t → ∀ j,
    (i = .pack → (packBytes s.cbuf).length ≤ j → memGet t.bytes j = memGet s.bytes j) ∧
    (i = .decode → (wholeBytes s.mbuf).length ≤ j → memGet t.bytes j = memGet s.bytes j) ∧
    (i ≠ .pack → i ≠ .decode → memGet t.bytes j = memGet s.bytes j)

/-! ### The division (41_crc.md) -/

/-- R144: the bit-serial loop gives the remainder of R140 for every message, the empty one included. -/
def Obligations.SerialDivisionEqualsWindowDivision : Prop :=
  ∀ (p : Params) (s : Bits), legalParams p = true → remSerial p s = rem p s

/-- R143: the remainder is the coefficient vector of (M(x)·x^K) mod G(x) over GF(2). -/
def Obligations.RemainderIsPolynomialRemainder : Prop :=
  ∀ (p : Params) (s : Bits), legalParams p = true →
    let poly : Bits → Polynomial (ZMod 2) :=
      List.foldl (fun acc b => acc * Polynomial.X + Polynomial.C (if b then 1 else 0)) 0
    (rem p s).length = paramK p ∧
      poly (rem p s) = (poly s * Polynomial.X ^ paramK p) %ₘ poly p.P

/-- R141, R143: K zeros for the empty message; leading zero bits do not change the remainder. -/
def Obligations.LeadingZerosDoNotMatter : Prop :=
  ∀ (p : Params) (n : Nat) (s : Bits), legalParams p = true →
    rem p [] = zeros (paramK p) ∧ rem p (zeros n ++ s) = rem p s

/-- R147: CRC's and VERIFY's results depend on the build, MBUF and RCRC alone. -/
def Obligations.DivisionCommandsArePure : Prop :=
  ∀ s s' : State, s.params = s'.params → s.mbuf = s'.mbuf →
    (∃ t t', exec .crc s = .next t ∧ exec .crc s' = .next t' ∧ t.crcv = t'.crcv) ∧
    (s.rcrc = s'.rcrc → ∃ t t', exec .verify s = .next t ∧ exec .verify s' = .next t' ∧
      t.crcv = t'.crcv ∧ t.vdone = t'.vdone ∧ t.vmatch = t'.vmatch)

/-! ### Laws over several commands -/

/-- R111: the MBUF that ENCODE writes equals the CBUF that UNPACK 8·BLEN would write from the same BYTES. -/
def Obligations.EncodeIsUnpackOfWholeBytes : Prop :=
  ∀ s : State, legalParams s.params = true → s.blen.toNat ≤ s.params.msgBytes →
    ∃ t u, exec .encode s = .next t ∧ exec (.unpack (BitVec.ofNat 28 (8 * s.blen.toNat))) s = .next u ∧
      t.err = .none ∧ u.err = .none ∧ t.mbuf = u.cbuf

/-- R119: PACK then UNPACK CLEN completes both without error and leaves CBUF and CLEN as they were. -/
def Obligations.PackThenUnpackRestores : Prop :=
  ∀ s : State, legalParams s.params = true → s.clen ≤ cCap s.params →
    ∃ t u, exec .pack s = .next t ∧ exec (.unpack (BitVec.ofNat 28 s.clen)) t = .next u ∧
      t.err = .none ∧ u.err = .none ∧ u.cbuf = s.cbuf ∧ u.clen = s.clen

/-- R123: ENCODE then DECODE leaves BYTES[0..n) and BLEN as ENCODE read them. -/
def Obligations.EncodeThenDecodeRestores : Prop :=
  ∀ s : State, legalParams s.params = true → s.blen.toNat ≤ s.params.msgBytes →
    ∃ t u, exec .encode s = .next t ∧ exec .decode t = .next u ∧ t.err = .none ∧ u.err = .none ∧
      u.blen = s.blen ∧ ∀ j, j < s.blen.toNat → memGet u.bytes j = some (memRead s j)

/-- R163: ASSEMBLE then SPLIT MLEN completes both without error and leaves MBUF and MLEN as they were, RCRC = CRCV. -/
def Obligations.SplitInvertsAssemble : Prop :=
  ∀ s : State, legalParams s.params = true → s.mlen ≤ maxM s.params →
    s.crcv.toNat < 2 ^ paramK s.params →
    ∃ t u, exec .assemble s = .next t ∧ exec (.split (BitVec.ofNat 28 s.mlen)) t = .next u ∧
      t.err = .none ∧ u.err = .none ∧ u.mbuf = s.mbuf ∧ u.mlen = s.mlen ∧ u.rcrc = s.crcv

/-- R148: ENCODE, CRC, ASSEMBLE, PACK, UNPACK 8n+K, SPLIT 8n, VERIFY complete without error and end in a match. -/
def Obligations.FrameRoundTripMatches : Prop :=
  ∀ s : State, legalParams s.params = true → s.blen.toNat ≤ s.params.msgBytes →
    ∃ s₁ s₂ s₃ s₄ s₅ s₆ s₇,
      exec .encode s = .next s₁ ∧ exec .crc s₁ = .next s₂ ∧ exec .assemble s₂ = .next s₃ ∧
      exec .pack s₃ = .next s₄ ∧
      exec (.unpack (BitVec.ofNat 28 (8 * s.blen.toNat + paramK s.params))) s₄ = .next s₅ ∧
      exec (.split (BitVec.ofNat 28 (8 * s.blen.toNat))) s₅ = .next s₆ ∧
      exec .verify s₆ = .next s₇ ∧
      s₁.err = .none ∧ s₂.err = .none ∧ s₃.err = .none ∧ s₄.err = .none ∧ s₅.err = .none ∧
      s₆.err = .none ∧ s₇.err = .none ∧ s₇.vdone = true ∧ s₇.vmatch = true

/-- R149: flip one bit i of the codeword of a message m, split and verify: a match is reported exactly when P is the
monomial x^K and i lies in the message; and for P = x^K every remainder is zeros. -/
def Obligations.SingleFlipDetection : Prop :=
  (∀ (s : State) (m : Bits) (i : Arg), legalParams s.params = true → s.params.hasFlip = true →
    m.length ≤ maxM s.params → s.cbuf = m ++ rem s.params m → i.toNat < s.clen →
    ∃ t u v, exec (.flip i) s = .next t ∧ exec (.split (BitVec.ofNat 28 m.length)) t = .next u ∧
      exec .verify u = .next v ∧ t.err = .none ∧ u.err = .none ∧ v.vdone = true ∧
      (v.vmatch = true ↔ s.params.P = true :: zeros (paramK s.params) ∧ i.toNat < m.length)) ∧
  (∀ (p : Params) (m : Bits), legalParams p = true → p.P = true :: zeros (paramK p) →
    rem p m = zeros (paramK p))

/-- R181: FLIP i then PACK gives the BYTES of PACK with byte ⌊i/8⌋ XORed with 2^(7 − i mod 8). -/
def Obligations.FlipShowsOnTheWire : Prop :=
  ∀ (s : State) (i : Arg), legalParams s.params = true → s.params.hasFlip = true →
    s.clen ≤ cCap s.params → i.toNat < s.clen →
    ∃ t u v, exec (.flip i) s = .next t ∧ exec .pack t = .next u ∧ exec .pack s = .next v ∧
      u.blen = v.blen ∧ ∀ j, memGet u.bytes j =
        if j = i.toNat / 8 then (memGet v.bytes j).map (· ^^^ BitVec.ofNat 8 (2 ^ (7 - i.toNat % 8)))
        else memGet v.bytes j

/-- R180: two FLIPs at the same i restore CBUF. -/
def Obligations.FlipTwiceRestores : Prop :=
  ∀ (s : State) (i : Arg), s.params.hasFlip = true → i.toNat < s.clen →
    ∃ t u, exec (.flip i) s = .next t ∧ exec (.flip i) t = .next u ∧ u.err = .none ∧ u.cbuf = s.cbuf

/-! ### The machine -/

/-- R39 holds after reset. -/
def Obligations.ResetMeetsInvariants : Prop := State.reset.Inv

/-- R39: every step keeps the invariants. -/
def Obligations.StepKeepsInvariants : Prop := ∀ s t : State, s.Inv → step s = .next t → t.Inv

/-- R11: no command and no bus write changes P, K or any other parameter. -/
def Obligations.StepKeepsTheBuild : Prop := ∀ s t : State, step s = .next t → t.params = s.params

/-- R11, U12: a configuration that R9 and R11 do not allow is refused; one with P[0] = 0 is such a one. -/
def Obligations.IllegalBuildIsRefused : Prop :=
  (∀ s : State, legalParams s.params = false → step s = .refused .illegalConfiguration) ∧
  (∀ p : Params, p.P.head? ≠ some true → legalParams p = false)

/-- A step runs the decoded command: with an accepted word whose completion is due, the step is `exec` of the command
the word decodes to (R93, R202), with nothing around it. -/
def Obligations.StepRunsTheDecodedCommand : Prop :=
  ∀ (s : State) (w : Word) (i : Instr), legalParams s.params = true → s.inflight = some ⟨w, 0⟩ →
    decode s.params.hasFlip w = .ok i → step s = exec i s

/-- R205: a full-word write to CMD while BUSY = 0 is accepted: BUSY = 1, the word captured, all else as it was. -/
def Obligations.CommandWriteIsAccepted : Prop :=
  ∀ (s : State) (off : Nat) (w : Word) (rest : List Input), legalParams s.params = true →
    s.busy = false → s.inputs = .write off w 0b1111#4 :: rest → off / 4 = 4 →
    ∃ t n, step s = .next t ∧ t.busy = true ∧ t.inflight = some ⟨w, n⟩ ∧ sameData s t ∧
      sameStatus s t ∧ t.params = s.params ∧ t.inputs = rest ∧ t.record = s.record

/-- R206: a full-word write to CMD while BUSY = 1 is dropped: CMDLOST = 1, the command in flight goes on, nothing else
changes. That one host move fewer is then left before the completion is the model's countdown (log 2, DESIGN CHOICE), no
words of R206. -/
def Obligations.CommandWriteIsDroppedWhileBusy : Prop :=
  ∀ (s : State) (off n : Nat) (w v : Word) (rest : List Input), legalParams s.params = true →
    s.inflight = some ⟨w, n + 1⟩ → s.inputs = .write off v 0b1111#4 :: rest → off / 4 = 4 →
    step s = .next { s with inflight := some ⟨w, n⟩, inputs := rest, cmdLost := true }

/-- R241, R12, U3 (the fault is the treatment the spec recommends; log 5): while BUSY = 1, a read of MLEN, CLEN, BLEN, CRCV,
RCRC or the window, and a write to BLEN or the window, is a fault. -/
def Obligations.BusyHazardFaults : Prop :=
  ∀ (s : State) (off n : Nat) (w : Word) (rest : List Input), legalParams s.params = true →
    s.inflight = some ⟨w, n + 1⟩ →
    ((6 ≤ off / 4 ∧ off / 4 ≤ 10) ∨ WindowWord s.params (off / 4) →
      (s.inputs = .read off :: rest → step s = .fault (.busyHazard off)) ∧
      (∀ lane, s.inputs = .readLane off lane :: rest → step s = .fault (.busyHazard off))) ∧
    (off / 4 = 8 ∨ WindowWord s.params (off / 4) →
      ∀ v strb, s.inputs = .write off v strb :: rest → step s = .fault (.busyHazard off))

/-- While BUSY = 1, reads of CFG, POLY, MSGCAP, BYTECAP and STATUS (R241) and of CMD (D19 names it beside them) are well
defined and change nothing; STATUS shows BUSY = 1 (R28), CMD reads 0 (R27). That unmapped offsets stay defined too, as R64
says, is the model's reading of R241's lists, which do not name them (log 5, DEDUCED); the countdown of the moves left is
the model's (log 2, DESIGN CHOICE). -/
def Obligations.BusyReadsWellDefined : Prop :=
  ∀ (s : State) (off n : Nat) (w : Word) (rest : List Input), legalParams s.params = true →
    s.inflight = some ⟨w, n + 1⟩ → s.inputs = .read off :: rest →
    (off / 4 ≤ 5 ∨ UnmappedWord s.params (off / 4)) →
    step s = .next { s with
        inflight := some ⟨w, n⟩, inputs := rest, record := s.record ++ [busValue s off] } ∧
      (off / 4 = 5 → (busValue s off).getLsbD 0 = true) ∧
      (off / 4 = 4 ∨ UnmappedWord s.params (off / 4) → busValue s off = 0)

/-- R28, R205 (log 6): while a command stays in flight, its word, the data state it reads and STATUS but for CMDLOST stay
as they are, and CMDLOST is never cleared. -/
def Obligations.InFlightOperandsAreFrozen : Prop :=
  ∀ s t : State, s.busy = true → step s = .next t → t.busy = true →
    sameData s t ∧ t.inflight.map InFlight.word = s.inflight.map InFlight.word ∧
      t.err = s.err ∧ t.vdone = s.vdone ∧ t.vmatch = s.vmatch ∧ t.errSticky = s.errSticky ∧
      (s.cmdLost = true → t.cmdLost = true)

/-- R243, R202: a host that polls, or has nothing left to do, sees the in-flight command complete, from the state at
acceptance. The number of steps, one for each move left and one for the completion, is the model's (log 2, DESIGN CHOICE),
and so is that `wait` polls once a step and stays at the head of the host's list while BUSY = 1 (log 7, DESIGN CHOICE). -/
def Obligations.PollingReachesCompletion : Prop :=
  ∀ (s : State) (w : Word) (n : Nat), legalParams s.params = true → s.inflight = some ⟨w, n⟩ →
    (s.inputs = [] ∨ ∃ rest, s.inputs = .wait :: rest) →
    core.run (n + 1) s = completeWord w { s with inflight := some ⟨w, 0⟩ }

/-! ### The host's registers and window -/

/-- R62, R67, R61: a window read returns BYTES[4w + L] in lane L, 0x00 at and above BYTE_CAP, and changes no state of the
block. -/
def Obligations.WindowReadLanes : Prop :=
  ∀ (s : State) (off w : Nat) (rest : List Input), legalParams s.params = true → s.busy = false →
    s.inputs = .read off :: rest → off / 4 = 1024 + w → WindowWord s.params (off / 4) →
    ∃ t v, step s = .next t ∧ t.record = s.record ++ [v] ∧
      (∀ lane b, lane < 4 → b < 8 → v.getLsbD (8 * lane + b) =
        (decide (4 * w + lane < byteCap s.params) && (memRead s (4 * w + lane)).getLsbD b)) ∧
      sameData s t ∧ sameStatus s t ∧ t.busy = false ∧ t.inputs = rest ∧ t.params = s.params

/-- R62, R61: a window write moves the strobed lanes below BYTE_CAP; every other byte and everything else is
unchanged. -/
def Obligations.WindowWriteLanes : Prop :=
  ∀ (s : State) (off w : Nat) (v : Word) (strb : BitVec 4) (rest : List Input),
    legalParams s.params = true → s.busy = false → s.inputs = .write off v strb :: rest →
    off / 4 = 1024 + w → WindowWord s.params (off / 4) →
    ∃ t, step s = .next t ∧
      (∀ j, memGet t.bytes j =
        if j / 4 = w ∧ strb.getLsbD (j % 4) = true ∧ j < byteCap s.params
        then some (v.extractLsb' (8 * (j % 4)) 8) else memGet s.bytes j) ∧
      t = { s with bytes := t.bytes, inputs := rest }

/-- R98: `wrb j, v` writes byte v at BYTES[j] and nothing else. -/
def Obligations.ByteWriteStatement : Prop :=
  ∀ (s : State) (j : Nat) (v : Byte) (rest : List Input), legalParams s.params = true →
    s.busy = false → j < byteCap s.params → s.inputs = wrbInput j v :: rest →
    ∃ t, step s = .next t ∧ (∀ k, memGet t.bytes k = if k = j then some v else memGet s.bytes k) ∧
      t = { s with bytes := t.bytes, inputs := rest }

/-- R21, R27, R63: a write to a read-only register, with any strobe, and a partial-strobe write to CMD answer and change
nothing, whether or not a command is in flight; a partial-strobe write to BLEN changes nothing while BUSY = 0 (while
BUSY = 1 it is the hazard of R241: BusyHazardFaults). That such writes to registers other than BLEN stay defined while
BUSY = 1 is read from R241's lists, which do not name them (log 5, DEDUCED); the countdown of the moves left is the
model's (log 2, DESIGN CHOICE). -/
def Obligations.IgnoredRegisterWrites : Prop :=
  ∀ (s : State) (off : Nat) (v : Word) (strb : BitVec 4) (rest : List Input),
    legalParams s.params = true → s.inputs = .write off v strb :: rest →
    (s.busy = false →
      off / 4 ∈ [0, 1, 2, 3, 5, 6, 7, 9, 10] ∨ (off / 4 ∈ [4, 8] ∧ strb ≠ 0b1111#4) →
      step s = .next { s with inputs := rest }) ∧
    (∀ w n, s.inflight = some ⟨w, n + 1⟩ →
      off / 4 ∈ [0, 1, 2, 3, 5, 6, 7, 9, 10] ∨ (off / 4 = 4 ∧ strb ≠ 0b1111#4) →
      step s = .next { s with inflight := some ⟨w, n⟩, inputs := rest })

/-- R64: a read of an unmapped offset returns 0, a write to one is ignored, with no side effect, whether or not a command
is in flight. That this holds while BUSY = 1 is the model's reading of R241's lists, which do not name unmapped offsets
(log 5, DEDUCED); the countdown of the moves left is the model's (log 2, DESIGN CHOICE). -/
def Obligations.UnmappedAccesses : Prop :=
  ∀ (s : State) (off : Nat) (rest : List Input), legalParams s.params = true →
    UnmappedWord s.params (off / 4) →
    (s.busy = false →
      (s.inputs = .read off :: rest →
        step s = .next { s with inputs := rest, record := s.record ++ [0] }) ∧
      (∀ v strb, s.inputs = .write off v strb :: rest → step s = .next { s with inputs := rest })) ∧
    (∀ w n, s.inflight = some ⟨w, n + 1⟩ →
      (s.inputs = .read off :: rest → step s = .next { s with
        inflight := some ⟨w, n⟩, inputs := rest, record := s.record ++ [0] }) ∧
      (∀ v strb, s.inputs = .write off v strb :: rest → step s = .next { s with
        inflight := some ⟨w, n⟩, inputs := rest }))

/-- R35: a full-word write to BLEN while BUSY = 0 sets it when v ≤ BYTE_CAP and is ignored when v > BYTE_CAP. -/
def Obligations.BlenWriteWithinCapacity : Prop :=
  ∀ (s : State) (off : Nat) (v : Word) (rest : List Input), legalParams s.params = true →
    s.busy = false → s.inputs = .write off v 0b1111#4 :: rest → off / 4 = 8 →
    (v.toNat ≤ byteCap s.params →
      ∃ t, step s = .next t ∧ t.blen.toNat = v.toNat ∧ t = { s with blen := t.blen, inputs := rest }) ∧
    (byteCap s.params < v.toNat → step s = .next { s with inputs := rest })

/-- R71, R61, R98: while BUSY = 0, every read answers, records the value read (`rd`), the lane read (a one-lane read) or
the byte BYTES[j] (`rdb j`), and changes nothing the host can observe; with no cell of BYTES unwritten, every later read
returns what it would have returned before. The value does not depend on offset bits 1:0 (R61), and CMD reads 0 (R27). -/
def Obligations.ReadsHaveNoSideEffects : Prop :=
  ∀ (s : State) (rest : List Input), legalParams s.params = true → s.busy = false →
    (∀ off, s.inputs = .read off :: rest →
      ∃ t, step s = .next t ∧ readDone s t (busValue s off) rest) ∧
    (∀ off lane, s.inputs = .readLane off lane :: rest →
      ∃ t v, step s = .next t ∧ readDone s t v rest ∧
        ∀ b, v.getLsbD b = (decide (b < 8) && (busValue s off).getLsbD (8 * lane.val + b))) ∧
    (∀ j, j < byteCap s.params → s.inputs = rdbInput j :: rest →
      ∃ t, step s = .next t ∧ readDone s t ((memRead s j).setWidth 32) rest) ∧
    ∀ off, busValue s off = busValue s (4 * (off / 4)) ∧ (off / 4 = 4 → busValue s off = 0)

/-- R26: the layout of STATUS, as BusRead(0x014) returns it. -/
def Obligations.StatusLayout : Prop :=
  ∀ s : State,
    (busValue s 0x14).getLsbD 0 = s.busy ∧ (busValue s 0x14).getLsbD 1 = s.vdone ∧
    (busValue s 0x14).getLsbD 2 = s.vmatch ∧ (busValue s 0x14).getLsbD 3 = false ∧
    (∀ k, k < 4 → (busValue s 0x14).getLsbD (4 + k) = (errValue s.err).getLsbD k) ∧
    (busValue s 0x14).getLsbD 8 = s.errSticky ∧ (busValue s 0x14).getLsbD 9 = s.cmdLost ∧
    (∀ k, 10 ≤ k → (busValue s 0x14).getLsbD k = false)

/-- R22 to R25: what the four constant registers read in any legal build. -/
def Obligations.ConstantRegisters : Prop :=
  ∀ s : State, legalParams s.params = true →
    (busValue s 0x0).toNat = paramK s.params + (if s.params.hasFlip then 256 else 0) ∧
    (∀ i, i ≤ paramK s.params →
      s.params.P[i]? = some ((busValue s 0x4).getLsbD (paramK s.params - i))) ∧
    (∀ b, paramK s.params < b → (busValue s 0x4).getLsbD b = false) ∧
    (busValue s 0x8).toNat = s.params.msgBytes ∧
    (busValue s 0xC).toNat = s.params.msgBytes + (paramK s.params + 7) / 8

/-- R31 to R35: in every state of R39, MLEN, CLEN and BLEN read as the lengths they hold, bits 31:28 zero, and CRCV
(0x024) and RCRC (0x028) read as the remainders they hold, bits 31:K zero. -/
def Obligations.LengthRegisters : Prop :=
  ∀ s : State, s.Inv →
    (busValue s 0x18).toNat = s.mlen ∧ (busValue s 0x1C).toNat = s.clen ∧
    (busValue s 0x20).toNat = s.blen.toNat ∧ s.mlen < 2 ^ 28 ∧ s.clen < 2 ^ 28 ∧
    s.blen.toNat ≤ byteCap s.params ∧
    busValue s 0x24 = s.crcv ∧ busValue s 0x28 = s.rcrc ∧
    ∀ b, paramK s.params ≤ b →
      (busValue s 0x24).getLsbD b = false ∧ (busValue s 0x28).getLsbD b = false

/-! ### Reset (70_reset_and_hazards.md) -/

/-- R42: the registers after reset, in the default build. -/
def Obligations.RegistersAfterReset : Prop :=
  busValue State.reset 0x00 = 0x00000103#32 ∧ busValue State.reset 0x04 = 0x0000000D#32 ∧
  busValue State.reset 0x08 = 0x00000100#32 ∧ busValue State.reset 0x0C = 0x00000101#32 ∧
  busValue State.reset 0x14 = 0#32 ∧ busValue State.reset 0x18 = 0#32 ∧
  busValue State.reset 0x1C = 0#32 ∧ busValue State.reset 0x20 = 0#32 ∧
  busValue State.reset 0x24 = 0#32 ∧ busValue State.reset 0x28 = 0#32 ∧
  State.reset.busy = false ∧ ∀ j, memGet State.reset.bytes j = none

/-- R230, R42: a reset gives every register its reset value, abandons a command in flight with no completion, and leaves
no byte of BYTES a value; the build stays. -/
def Obligations.ResetAbandonsTheCommand : Prop :=
  ∀ (s : State) (rest : List Input), legalParams s.params = true → s.inputs = .reset :: rest →
    (s.busy = false ∨ ∃ w n, s.inflight = some ⟨w, n + 1⟩) →
    ∃ t, step s = .next t ∧ t.busy = false ∧ statusWord t = 0 ∧ t.mlen = 0 ∧ t.clen = 0 ∧
      t.blen = 0 ∧ t.crcv = 0 ∧ t.rcrc = 0 ∧ (∀ j, memGet t.bytes j = none) ∧
      t.params = s.params ∧ t.inputs = rest ∧ t.record = s.record
end

