-- ==== Sys2Proof/Laws/Bits.lean ====
section
/-! SUPPORT. Laws/Bits.lean: lengths and elements of the bit-sequence operations, and the two round trips between
sequences and values. -/

namespace Sys2Proof.Machine

/-! ### Lengths -/

@[simp] theorem zeros_length (n : Nat) : (zeros n).length = n := by simp [zeros]

@[simp] theorem byteBits_length (v : Byte) : (byteBits v).length = 8 := by simp [byteBits]

@[simp] theorem valSeq_length (k : Nat) (v : Word) : (valSeq k v).length = k := by simp [valSeq]

@[simp] theorem xorBits_length (s t : Bits) : (xorBits s t).length = min s.length t.length := by
  simp [xorBits]

theorem slice_length (s : Bits) (a b : Nat) : (slice s a b).length = min (b - a) (s.length - a) := by
  simp [slice]

@[simp] theorem packBytes_length (s : Bits) : (packBytes s).length = ceilDiv s.length 8 := by
  simp [packBytes]

@[simp] theorem wholeBytes_length (s : Bits) : (wholeBytes s).length = s.length / 8 := by
  simp [wholeBytes]

theorem ceilDiv_eight (a : Nat) : ceilDiv a 8 = (a + 7) / 8 := rfl

/-- A full message's codeword fits BYTES when packed (R10). -/
theorem ceilDiv_cCap (p : Params) : ceilDiv (cCap p) 8 = byteCap p := by
  simp only [ceilDiv, cCap, byteCap, maxM]
  omega

theorem ceilDiv_eight_mono {a b : Nat} (h : a ≤ b) : ceilDiv a 8 ≤ ceilDiv b 8 := by
  simp only [ceilDiv]
  omega

/-! ### Elements -/

theorem byteBits_getElem (v : Byte) (t : Nat) (h : t < (byteBits v).length) :
    (byteBits v)[t] = v.getLsbD (7 - t) := by
  simp [byteBits]

theorem valSeq_getElem (k : Nat) (v : Word) (i : Nat) (h : i < (valSeq k v).length) :
    (valSeq k v)[i] = v.getLsbD (k - 1 - i) := by
  simp [valSeq]

/-! ### Values -/

theorem seqVal_foldl (s : Bits) (acc : Nat) :
    s.foldl (fun a b => 2 * a + b.toNat) acc = acc * 2 ^ s.length + seqVal s := by
  induction s generalizing acc with
  | nil => simp [seqVal]
  | cons b s ih =>
    simp only [seqVal, List.foldl_cons, List.length_cons, ih (2 * acc + b.toNat), ih (2 * 0 + b.toNat)]
    ring

@[simp] theorem seqVal_nil : seqVal [] = 0 := rfl

theorem seqVal_cons (b : Bool) (s : Bits) : seqVal (b :: s) = b.toNat * 2 ^ s.length + seqVal s := by
  have h := seqVal_foldl s (2 * 0 + b.toNat)
  simpa [seqVal] using h

theorem seqVal_append (s t : Bits) : seqVal (s ++ t) = seqVal s * 2 ^ t.length + seqVal t := by
  have h := seqVal_foldl t (seqVal s)
  simpa [seqVal, List.foldl_append] using h

theorem seqVal_lt (s : Bits) : seqVal s < 2 ^ s.length := by
  induction s with
  | nil => simp
  | cons b s ih =>
    rw [seqVal_cons, List.length_cons, pow_succ]
    cases b <;> simp <;> omega

/-- Register bit len−1−i of a sequence's value is its element i (R13, R16). -/
theorem testBit_seqVal (s : Bits) (i : Nat) (h : i < s.length) :
    (seqVal s).testBit (s.length - 1 - i) = s[i] := by
  induction s generalizing i with
  | nil => simp at h
  | cons b s ih =>
    have hlt := seqVal_lt s
    rw [seqVal_cons]
    cases i with
    | zero =>
      simp only [List.length_cons, Nat.add_sub_cancel, Nat.sub_zero, List.getElem_cons_zero]
      rw [Nat.mul_comm, Nat.testBit_two_pow_mul_add _ hlt]
      cases b <;> simp
    | succ i =>
      have hi : i < s.length := by simpa using h
      have e : (b :: s).length - 1 - (i + 1) = s.length - 1 - i := by simp; omega
      rw [e, Nat.mul_comm, Nat.testBit_two_pow_mul_add _ hlt, if_pos (by omega), ih i hi]
      simp

/-- seqWord puts element i of a K-bit sequence at register bit K−1−i (R31). -/
theorem seqWord_getLsbD (s : Bits) (hs : s.length ≤ 32) (i : Nat) (h : i < s.length) :
    (seqWord s).getLsbD (s.length - 1 - i) = s[i] := by
  rw [seqWord, BitVec.getLsbD_ofNat, testBit_seqVal s i h]
  simp
  omega

/-- val_seq_K(zext_32(seq_val(s))) = s for a K-bit sequence (R16, R31). -/
theorem valSeq_seqWord (s : Bits) (hs : s.length ≤ 32) : valSeq s.length (seqWord s) = s := by
  apply List.ext_getElem
  · simp
  · intro i h₁ h₂
    rw [valSeq_getElem, seqWord_getLsbD s hs i h₂]

theorem seqWord_toNat (s : Bits) (hs : s.length ≤ 32) : (seqWord s).toNat = seqVal s := by
  have h := seqVal_lt s
  have h2 : 2 ^ s.length ≤ 2 ^ 32 := Nat.pow_le_pow_right (by decide) hs
  simp only [seqWord, BitVec.toNat_ofNat]
  omega

/-- bits_byte inverts byte_bits (R16). -/
theorem bitsByte_byteBits (v : Byte) : bitsByte (byteBits v) = v := by
  revert v
  decide

theorem bitsByte_getLsbD (g : Bits) (hg : g.length = 8) (t : Nat) (ht : t < 8) :
    (bitsByte g).getLsbD (7 - t) = g[t] := by
  have h := testBit_seqVal g t (by omega)
  have e : g.length - 1 - t = 7 - t := by omega
  rw [e] at h
  rw [bitsByte, BitVec.getLsbD_ofNat, h]
  simp
  omega

/-- byte_bits inverts bits_byte on 8-bit sequences (R16). -/
theorem byteBits_bitsByte (g : Bits) (hg : g.length = 8) : byteBits (bitsByte g) = g := by
  apply List.ext_getElem
  · simp [hg]
  · intro t h₁ h₂
    rw [byteBits_getElem, bitsByte_getLsbD g hg t (by omega)]

/-! ### Legal parameters -/

/-- What R9 and R11 allow, as one fact. -/
theorem legalParams_iff (p : Params) :
    legalParams p = true ↔
      (1 ≤ paramK p ∧ paramK p ≤ 31 ∧ p.P.length = paramK p + 1) ∧ p.P.head? = some true ∧
        1 ≤ p.msgBytes ∧ 8 * p.msgBytes + paramK p ≤ 2 ^ 28 - 1 := by
  simp only [legalParams, paramK, Bool.and_eq_true, decide_eq_true_eq, beq_iff_eq]
  constructor
  · rintro ⟨⟨⟨⟨h₁, h₂⟩, h₃⟩, h₄⟩, h₅⟩
    exact ⟨⟨by omega, by omega, by omega⟩, h₃, h₄, of_decide_eq_true h₅⟩
  · rintro ⟨⟨h₁, h₂, h₆⟩, h₃, h₄, h₅⟩
    exact ⟨⟨⟨⟨by omega, by omega⟩, h₃⟩, h₄⟩, decide_eq_true h₅⟩

/-- BYTE_CAP fits BLEN's 28 bits (R10). -/
theorem byteCap_lt {p : Params} (h : legalParams p = true) : byteCap p < 2 ^ 28 := by
  have hp := (legalParams_iff p).1 h
  simp only [byteCap, ceilDiv]
  omega

end Sys2Proof.Machine
end

