-- ==== Sys2Proof/Laws/Crc.lean ====
section
/-! SUPPORT. Laws/Crc.lean: the shape of the division: every window has K+1 bits and the remainder K. -/

namespace Sys2Proof.Machine

theorem reduceWindow_length (P W : Bits) (h : W.length = P.length) :
    (reduceWindow P W).length = P.length := by
  unfold reduceWindow
  split <;> simp [h]

theorem remLoop_nil (P W : Bits) : remLoop P W [] = (reduceWindow P W).drop 1 := rfl

theorem remLoop_cons (P W : Bits) (d : Bool) (ds : Bits) :
    remLoop P W (d :: ds) = remLoop P ((reduceWindow P W).drop 1 ++ [d]) ds := rfl

theorem remLoop_length (P : Bits) (hP : P ≠ []) (W rest : Bits) (h : W.length = P.length) :
    (remLoop P W rest).length = P.length - 1 := by
  have hpos : 0 < P.length := List.length_pos_of_ne_nil hP
  induction rest generalizing W with
  | nil => simp [remLoop_nil, reduceWindow_length P W h]
  | cons d ds ih =>
    rw [remLoop_cons]
    apply ih
    simp [reduceWindow_length P W h]
    omega

/-- The remainder has K bits (R140). -/
theorem rem_length (p : Params) (hP : 1 ≤ p.P.length) (s : Bits) : (rem p s).length = paramK p := by
  unfold rem
  split
  · simp
  · rename_i hs
    have hpos : 0 < s.length := List.length_pos_of_ne_nil hs
    rw [remLoop_length]
    · rfl
    · intro h; simp [h] at hP
    · simp [paramK]; omega

@[simp] theorem serialStep_length (P R : Bits) (b : Bool) (h : R.length + 1 = P.length) (hR : R ≠ []) :
    (serialStep P R b).length = R.length := by
  have hpos : 0 < R.length := List.length_pos_of_ne_nil hR
  simp only [serialStep]
  split
  · simp; omega
  · simp; omega

end Sys2Proof.Machine
end

