-- ==== Sys2Proof/Laws/Memory.lean ====
section
/-! SUPPORT. Laws/Memory.lean: a read after a write, and that every operation over BYTES keeps the canonical form. -/

namespace Sys2Proof.Machine

@[simp] theorem memGet_nil (j : Nat) : memGet [] j = none := rfl

theorem memGet_eq_none_of_lt {m : Memory} {j : Nat} (h : ∀ c ∈ m, j < c.1) : memGet m j = none := by
  induction m with
  | nil => rfl
  | cons c m ih =>
    have hc := h c (by simp)
    rw [memGet, if_neg (by omega), ih fun d hd => h d (by simp [hd])]

/-- The byte written is read back; every other index reads as before. -/
theorem memGet_memSet (m : Memory) (i j : Nat) (v : Byte) :
    memGet (memSet m i v) j = if j = i then some v else memGet m j := by
  induction m with
  | nil => simp [memSet, memGet, eq_comm]
  | cons c m ih =>
    simp only [memSet]
    split
    · simp [memGet, eq_comm]
    · split
      · rename_i h; subst h
        by_cases hj : j = c.1
        · simp [memGet, hj]
        · simp [memGet, hj, Ne.symm hj]
      · simp only [memGet, ih]
        by_cases hc : c.1 = j
        · have : j ≠ i := by omega
          simp [hc, this]
        · simp [hc]

theorem mem_memSet {m : Memory} {i : Nat} {v : Byte} {c : Host.Cell} (h : c ∈ memSet m i v) :
    c = (i, v) ∨ c ∈ m := by
  induction m with
  | nil => simpa [memSet] using h
  | cons d m ih =>
    simp only [memSet] at h
    split at h
    · simpa using h
    · split at h
      · simp only [List.mem_cons] at h
        rcases h with h | h
        · exact .inl h
        · exact .inr (by simp [h])
      · simp only [List.mem_cons] at h
        rcases h with h | h
        · exact .inr (by simp [h])
        · rcases ih h with h | h
          · exact .inl h
          · exact .inr (by simp [h])

/-- A write keeps the canonical form. -/
theorem memSet_wf {m : Memory} (h : Memory.wf m) (i : Nat) (v : Byte) : Memory.wf (memSet m i v) := by
  induction m with
  | nil => simp [memSet]
  | cons c m ih =>
    have hm := (List.pairwise_cons.1 h).2
    have hc := (List.pairwise_cons.1 h).1
    simp only [memSet]
    split
    · rename_i hlt
      refine List.pairwise_cons.2 ⟨fun d hd => ?_, h⟩
      rcases List.mem_cons.1 hd with rfl | hd
      · exact hlt
      · exact lt_trans hlt (hc d hd)
    · split
      · rename_i he
        exact List.pairwise_cons.2 ⟨fun d hd => by rw [he]; exact hc d hd, hm⟩
      · refine List.pairwise_cons.2 ⟨fun d hd => ?_, ih hm⟩
        rcases mem_memSet hd with rfl | hd
        · show c.1 < i
          omega
        · exact hc d hd

theorem memSetList_wf {m : Memory} (h : Memory.wf m) (i : Nat) (vs : List Byte) :
    Memory.wf (memSetList m i vs) := by
  induction vs generalizing m i with
  | nil => exact h
  | cons v vs ih => exact ih (memSet_wf h i v) (i + 1)

theorem mem_memSetList {m : Memory} {i : Nat} {vs : List Byte} {c : Host.Cell}
    (h : c ∈ memSetList m i vs) : (i ≤ c.1 ∧ c.1 < i + vs.length) ∨ c ∈ m := by
  induction vs generalizing m i with
  | nil => exact .inr h
  | cons v vs ih =>
    rcases ih h with h | h
    · left; simp only [List.length_cons]; omega
    · rcases mem_memSet h with rfl | h
      · left; simp
      · exact .inr h

/-- Consecutive bytes are read back; every index outside them reads as before. -/
theorem memGet_memSetList (m : Memory) (i : Nat) (vs : List Byte) (j : Nat) :
    memGet (memSetList m i vs) j =
      if i ≤ j ∧ j < i + vs.length then vs[j - i]? else memGet m j := by
  induction vs generalizing m i with
  | nil => simp [memSetList]
  | cons v vs ih =>
    rw [memSetList, ih, memGet_memSet]
    simp only [List.length_cons]
    by_cases h : j = i
    · subst h; simp
    · by_cases h2 : i + 1 ≤ j ∧ j < i + 1 + vs.length
      · rw [if_pos h2, if_pos (by omega)]
        have : j - i = (j - (i + 1)) + 1 := by omega
        rw [this, List.getElem?_cons_succ]
      · rw [if_neg h2, if_neg h, if_neg (by omega)]

theorem reset_bytes_wf : Memory.wf State.reset.bytes := by decide

@[simp] theorem readBits_length (s : State) (n : Nat) : (readBits s n).length = 8 * n := by
  simp [readBits, byteBits, List.length_flatMap]
  omega

theorem readBits_succ (s : State) (n : Nat) :
    readBits s (n + 1) = readBits s n ++ byteBits (memRead s n) := by
  simp [readBits, List.range_succ]

/-- Bit 8j + t of BYTES[0..n) is byte bit 7 − t of cell j (R66). -/
theorem readBits_getElem? (s : State) (n j t : Nat) (hj : j < n) (ht : t < 8) :
    (readBits s n)[8 * j + t]? = some ((memRead s j).getLsbD (7 - t)) := by
  induction n with
  | zero => omega
  | succ n ih =>
    rw [readBits_succ]
    by_cases h : j < n
    · rw [List.getElem?_append_left (by simp; omega), ih h]
    · have hjn : j = n := by omega
      subst hjn
      rw [List.getElem?_append_right (by simp)]
      simp only [readBits_length, Nat.add_sub_cancel_left]
      simp [byteBits, ht]

/-- A cell that something has written reads as what was written, in every draw. -/
theorem memRead_of_memGet {s : State} {j : Nat} {v : Byte} (h : memGet s.bytes j = some v) :
    memRead s j = v := by
  simp [memRead, h]

end Sys2Proof.Machine
end

