-- ==== Sys2Proof/Laws/State.lean ====
section
/-! SUPPORT. Laws/State.lean: every field after every named update of the state, so that no proof unfolds a record
update. -/

namespace Sys2Proof.Machine

/-! ### finish -/

@[simp] theorem finish_params (s : State) (e : ErrCode) (d h : Bool) : (finish s e d h).params = s.params := rfl
@[simp] theorem finish_mbuf (s : State) (e : ErrCode) (d h : Bool) : (finish s e d h).mbuf = s.mbuf := rfl
@[simp] theorem finish_cbuf (s : State) (e : ErrCode) (d h : Bool) : (finish s e d h).cbuf = s.cbuf := rfl
@[simp] theorem finish_bytes (s : State) (e : ErrCode) (d h : Bool) : (finish s e d h).bytes = s.bytes := rfl
@[simp] theorem finish_blen (s : State) (e : ErrCode) (d h : Bool) : (finish s e d h).blen = s.blen := rfl
@[simp] theorem finish_crcv (s : State) (e : ErrCode) (d h : Bool) : (finish s e d h).crcv = s.crcv := rfl
@[simp] theorem finish_rcrc (s : State) (e : ErrCode) (d h : Bool) : (finish s e d h).rcrc = s.rcrc := rfl
@[simp] theorem finish_vdone (s : State) (e : ErrCode) (d h : Bool) : (finish s e d h).vdone = d := rfl
@[simp] theorem finish_vmatch (s : State) (e : ErrCode) (d h : Bool) : (finish s e d h).vmatch = h := rfl
@[simp] theorem finish_err (s : State) (e : ErrCode) (d h : Bool) : (finish s e d h).err = e := rfl
@[simp] theorem finish_errSticky (s : State) (e : ErrCode) (d h : Bool) : (finish s e d h).errSticky = (s.errSticky || decide (e ≠ ErrCode.none)) := rfl
@[simp] theorem finish_cmdLost (s : State) (e : ErrCode) (d h : Bool) : (finish s e d h).cmdLost = s.cmdLost := rfl
@[simp] theorem finish_inflight (s : State) (e : ErrCode) (d h : Bool) : (finish s e d h).inflight = none := rfl
@[simp] theorem finish_inputs (s : State) (e : ErrCode) (d h : Bool) : (finish s e d h).inputs = s.inputs := rfl
@[simp] theorem finish_record (s : State) (e : ErrCode) (d h : Bool) : (finish s e d h).record = s.record := rfl
@[simp] theorem finish_draws (s : State) (e : ErrCode) (d h : Bool) : (finish s e d h).draws = s.draws + 1 := rfl
@[simp] theorem finish_mlen (s : State) (e : ErrCode) (d h : Bool) : (finish s e d h).mlen = s.mlen := rfl
@[simp] theorem finish_clen (s : State) (e : ErrCode) (d h : Bool) : (finish s e d h).clen = s.clen := rfl
@[simp] theorem finish_busy (s : State) (e : ErrCode) (d h : Bool) : (finish s e d h).busy = false := rfl

/-! ### complete -/

@[simp] theorem complete_params (s : State) : (complete s).params = s.params := rfl
@[simp] theorem complete_mbuf (s : State) : (complete s).mbuf = s.mbuf := rfl
@[simp] theorem complete_cbuf (s : State) : (complete s).cbuf = s.cbuf := rfl
@[simp] theorem complete_bytes (s : State) : (complete s).bytes = s.bytes := rfl
@[simp] theorem complete_blen (s : State) : (complete s).blen = s.blen := rfl
@[simp] theorem complete_crcv (s : State) : (complete s).crcv = s.crcv := rfl
@[simp] theorem complete_rcrc (s : State) : (complete s).rcrc = s.rcrc := rfl
@[simp] theorem complete_vdone (s : State) : (complete s).vdone = false := rfl
@[simp] theorem complete_vmatch (s : State) : (complete s).vmatch = false := rfl
@[simp] theorem complete_err (s : State) : (complete s).err = .none := rfl
@[simp] theorem complete_errSticky (s : State) : (complete s).errSticky = s.errSticky := by simp [complete]
@[simp] theorem complete_cmdLost (s : State) : (complete s).cmdLost = s.cmdLost := rfl
@[simp] theorem complete_inflight (s : State) : (complete s).inflight = none := rfl
@[simp] theorem complete_inputs (s : State) : (complete s).inputs = s.inputs := rfl
@[simp] theorem complete_record (s : State) : (complete s).record = s.record := rfl
@[simp] theorem complete_draws (s : State) : (complete s).draws = s.draws + 1 := rfl
@[simp] theorem complete_mlen (s : State) : (complete s).mlen = s.mlen := rfl
@[simp] theorem complete_clen (s : State) : (complete s).clen = s.clen := rfl
@[simp] theorem complete_busy (s : State) : (complete s).busy = false := rfl

/-! ### completeVerdict -/

@[simp] theorem completeVerdict_params (s : State) (hit : Bool) : (completeVerdict s hit).params = s.params := rfl
@[simp] theorem completeVerdict_mbuf (s : State) (hit : Bool) : (completeVerdict s hit).mbuf = s.mbuf := rfl
@[simp] theorem completeVerdict_cbuf (s : State) (hit : Bool) : (completeVerdict s hit).cbuf = s.cbuf := rfl
@[simp] theorem completeVerdict_bytes (s : State) (hit : Bool) : (completeVerdict s hit).bytes = s.bytes := rfl
@[simp] theorem completeVerdict_blen (s : State) (hit : Bool) : (completeVerdict s hit).blen = s.blen := rfl
@[simp] theorem completeVerdict_crcv (s : State) (hit : Bool) : (completeVerdict s hit).crcv = s.crcv := rfl
@[simp] theorem completeVerdict_rcrc (s : State) (hit : Bool) : (completeVerdict s hit).rcrc = s.rcrc := rfl
@[simp] theorem completeVerdict_vdone (s : State) (hit : Bool) : (completeVerdict s hit).vdone = true := rfl
@[simp] theorem completeVerdict_vmatch (s : State) (hit : Bool) : (completeVerdict s hit).vmatch = hit := rfl
@[simp] theorem completeVerdict_err (s : State) (hit : Bool) : (completeVerdict s hit).err = .none := rfl
@[simp] theorem completeVerdict_errSticky (s : State) (hit : Bool) : (completeVerdict s hit).errSticky = s.errSticky := by simp [completeVerdict]
@[simp] theorem completeVerdict_cmdLost (s : State) (hit : Bool) : (completeVerdict s hit).cmdLost = s.cmdLost := rfl
@[simp] theorem completeVerdict_inflight (s : State) (hit : Bool) : (completeVerdict s hit).inflight = none := rfl
@[simp] theorem completeVerdict_inputs (s : State) (hit : Bool) : (completeVerdict s hit).inputs = s.inputs := rfl
@[simp] theorem completeVerdict_record (s : State) (hit : Bool) : (completeVerdict s hit).record = s.record := rfl
@[simp] theorem completeVerdict_draws (s : State) (hit : Bool) : (completeVerdict s hit).draws = s.draws + 1 := rfl
@[simp] theorem completeVerdict_mlen (s : State) (hit : Bool) : (completeVerdict s hit).mlen = s.mlen := rfl
@[simp] theorem completeVerdict_clen (s : State) (hit : Bool) : (completeVerdict s hit).clen = s.clen := rfl
@[simp] theorem completeVerdict_busy (s : State) (hit : Bool) : (completeVerdict s hit).busy = false := rfl

/-! ### completeClear -/

@[simp] theorem completeClear_params (s : State) : (completeClear s).params = s.params := rfl
@[simp] theorem completeClear_mbuf (s : State) : (completeClear s).mbuf = s.mbuf := rfl
@[simp] theorem completeClear_cbuf (s : State) : (completeClear s).cbuf = s.cbuf := rfl
@[simp] theorem completeClear_bytes (s : State) : (completeClear s).bytes = s.bytes := rfl
@[simp] theorem completeClear_blen (s : State) : (completeClear s).blen = s.blen := rfl
@[simp] theorem completeClear_crcv (s : State) : (completeClear s).crcv = s.crcv := rfl
@[simp] theorem completeClear_rcrc (s : State) : (completeClear s).rcrc = s.rcrc := rfl
@[simp] theorem completeClear_vdone (s : State) : (completeClear s).vdone = false := rfl
@[simp] theorem completeClear_vmatch (s : State) : (completeClear s).vmatch = false := rfl
@[simp] theorem completeClear_err (s : State) : (completeClear s).err = .none := rfl
@[simp] theorem completeClear_errSticky (s : State) : (completeClear s).errSticky = false := rfl
@[simp] theorem completeClear_cmdLost (s : State) : (completeClear s).cmdLost = false := rfl
@[simp] theorem completeClear_inflight (s : State) : (completeClear s).inflight = none := rfl
@[simp] theorem completeClear_inputs (s : State) : (completeClear s).inputs = s.inputs := rfl
@[simp] theorem completeClear_record (s : State) : (completeClear s).record = s.record := rfl
@[simp] theorem completeClear_draws (s : State) : (completeClear s).draws = s.draws + 1 := rfl
@[simp] theorem completeClear_mlen (s : State) : (completeClear s).mlen = s.mlen := rfl
@[simp] theorem completeClear_clen (s : State) : (completeClear s).clen = s.clen := rfl
@[simp] theorem completeClear_busy (s : State) : (completeClear s).busy = false := rfl

/-! ### raise -/

@[simp] theorem raise_params (s : State) (e : ErrCode) : (raise s e).params = s.params := rfl
@[simp] theorem raise_mbuf (s : State) (e : ErrCode) : (raise s e).mbuf = s.mbuf := rfl
@[simp] theorem raise_cbuf (s : State) (e : ErrCode) : (raise s e).cbuf = s.cbuf := rfl
@[simp] theorem raise_bytes (s : State) (e : ErrCode) : (raise s e).bytes = s.bytes := rfl
@[simp] theorem raise_blen (s : State) (e : ErrCode) : (raise s e).blen = s.blen := rfl
@[simp] theorem raise_crcv (s : State) (e : ErrCode) : (raise s e).crcv = s.crcv := rfl
@[simp] theorem raise_rcrc (s : State) (e : ErrCode) : (raise s e).rcrc = s.rcrc := rfl
@[simp] theorem raise_vdone (s : State) (e : ErrCode) : (raise s e).vdone = false := rfl
@[simp] theorem raise_vmatch (s : State) (e : ErrCode) : (raise s e).vmatch = false := rfl
@[simp] theorem raise_err (s : State) (e : ErrCode) : (raise s e).err = e := rfl
@[simp] theorem raise_errSticky (s : State) (e : ErrCode) : (raise s e).errSticky = (s.errSticky || decide (e ≠ ErrCode.none)) := rfl
@[simp] theorem raise_cmdLost (s : State) (e : ErrCode) : (raise s e).cmdLost = s.cmdLost := rfl
@[simp] theorem raise_inflight (s : State) (e : ErrCode) : (raise s e).inflight = none := rfl
@[simp] theorem raise_inputs (s : State) (e : ErrCode) : (raise s e).inputs = s.inputs := rfl
@[simp] theorem raise_record (s : State) (e : ErrCode) : (raise s e).record = s.record := rfl
@[simp] theorem raise_draws (s : State) (e : ErrCode) : (raise s e).draws = s.draws + 1 := rfl
@[simp] theorem raise_mlen (s : State) (e : ErrCode) : (raise s e).mlen = s.mlen := rfl
@[simp] theorem raise_clen (s : State) (e : ErrCode) : (raise s e).clen = s.clen := rfl
@[simp] theorem raise_busy (s : State) (e : ErrCode) : (raise s e).busy = false := rfl

/-! ### accept -/

@[simp] theorem accept_params (s : State) (w : Word) : (accept s w).params = s.params := rfl
@[simp] theorem accept_mbuf (s : State) (w : Word) : (accept s w).mbuf = s.mbuf := rfl
@[simp] theorem accept_cbuf (s : State) (w : Word) : (accept s w).cbuf = s.cbuf := rfl
@[simp] theorem accept_bytes (s : State) (w : Word) : (accept s w).bytes = s.bytes := rfl
@[simp] theorem accept_blen (s : State) (w : Word) : (accept s w).blen = s.blen := rfl
@[simp] theorem accept_crcv (s : State) (w : Word) : (accept s w).crcv = s.crcv := rfl
@[simp] theorem accept_rcrc (s : State) (w : Word) : (accept s w).rcrc = s.rcrc := rfl
@[simp] theorem accept_vdone (s : State) (w : Word) : (accept s w).vdone = s.vdone := rfl
@[simp] theorem accept_vmatch (s : State) (w : Word) : (accept s w).vmatch = s.vmatch := rfl
@[simp] theorem accept_err (s : State) (w : Word) : (accept s w).err = s.err := rfl
@[simp] theorem accept_errSticky (s : State) (w : Word) : (accept s w).errSticky = s.errSticky := rfl
@[simp] theorem accept_cmdLost (s : State) (w : Word) : (accept s w).cmdLost = s.cmdLost := rfl
@[simp] theorem accept_inflight (s : State) (w : Word) : (accept s w).inflight = some { word := w, left := Config.latency w (latencyView s) } := rfl
@[simp] theorem accept_inputs (s : State) (w : Word) : (accept s w).inputs = s.inputs := rfl
@[simp] theorem accept_record (s : State) (w : Word) : (accept s w).record = s.record := rfl
@[simp] theorem accept_draws (s : State) (w : Word) : (accept s w).draws = s.draws + 1 := rfl
@[simp] theorem accept_mlen (s : State) (w : Word) : (accept s w).mlen = s.mlen := rfl
@[simp] theorem accept_clen (s : State) (w : Word) : (accept s w).clen = s.clen := rfl
@[simp] theorem accept_busy (s : State) (w : Word) : (accept s w).busy = true := rfl

/-! ### dropCommand -/

@[simp] theorem dropCommand_params (s : State) : (dropCommand s).params = s.params := rfl
@[simp] theorem dropCommand_mbuf (s : State) : (dropCommand s).mbuf = s.mbuf := rfl
@[simp] theorem dropCommand_cbuf (s : State) : (dropCommand s).cbuf = s.cbuf := rfl
@[simp] theorem dropCommand_bytes (s : State) : (dropCommand s).bytes = s.bytes := rfl
@[simp] theorem dropCommand_blen (s : State) : (dropCommand s).blen = s.blen := rfl
@[simp] theorem dropCommand_crcv (s : State) : (dropCommand s).crcv = s.crcv := rfl
@[simp] theorem dropCommand_rcrc (s : State) : (dropCommand s).rcrc = s.rcrc := rfl
@[simp] theorem dropCommand_vdone (s : State) : (dropCommand s).vdone = s.vdone := rfl
@[simp] theorem dropCommand_vmatch (s : State) : (dropCommand s).vmatch = s.vmatch := rfl
@[simp] theorem dropCommand_err (s : State) : (dropCommand s).err = s.err := rfl
@[simp] theorem dropCommand_errSticky (s : State) : (dropCommand s).errSticky = s.errSticky := rfl
@[simp] theorem dropCommand_cmdLost (s : State) : (dropCommand s).cmdLost = true := rfl
@[simp] theorem dropCommand_inflight (s : State) : (dropCommand s).inflight = s.inflight := rfl
@[simp] theorem dropCommand_inputs (s : State) : (dropCommand s).inputs = s.inputs := rfl
@[simp] theorem dropCommand_record (s : State) : (dropCommand s).record = s.record := rfl
@[simp] theorem dropCommand_draws (s : State) : (dropCommand s).draws = s.draws := rfl
@[simp] theorem dropCommand_mlen (s : State) : (dropCommand s).mlen = s.mlen := rfl
@[simp] theorem dropCommand_clen (s : State) : (dropCommand s).clen = s.clen := rfl
@[simp] theorem dropCommand_busy (s : State) : (dropCommand s).busy = s.busy := rfl

/-! ### platformReset -/

@[simp] theorem platformReset_params (s : State) : (platformReset s).params = s.params := rfl
@[simp] theorem platformReset_mbuf (s : State) : (platformReset s).mbuf = [] := rfl
@[simp] theorem platformReset_cbuf (s : State) : (platformReset s).cbuf = [] := rfl
@[simp] theorem platformReset_bytes (s : State) : (platformReset s).bytes = [] := rfl
@[simp] theorem platformReset_blen (s : State) : (platformReset s).blen = 0 := rfl
@[simp] theorem platformReset_crcv (s : State) : (platformReset s).crcv = 0 := rfl
@[simp] theorem platformReset_rcrc (s : State) : (platformReset s).rcrc = 0 := rfl
@[simp] theorem platformReset_vdone (s : State) : (platformReset s).vdone = false := rfl
@[simp] theorem platformReset_vmatch (s : State) : (platformReset s).vmatch = false := rfl
@[simp] theorem platformReset_err (s : State) : (platformReset s).err = .none := rfl
@[simp] theorem platformReset_errSticky (s : State) : (platformReset s).errSticky = false := rfl
@[simp] theorem platformReset_cmdLost (s : State) : (platformReset s).cmdLost = false := rfl
@[simp] theorem platformReset_inflight (s : State) : (platformReset s).inflight = none := rfl
@[simp] theorem platformReset_inputs (s : State) : (platformReset s).inputs = s.inputs := rfl
@[simp] theorem platformReset_record (s : State) : (platformReset s).record = s.record := rfl
@[simp] theorem platformReset_draws (s : State) : (platformReset s).draws = s.draws := rfl
@[simp] theorem platformReset_mlen (s : State) : (platformReset s).mlen = 0 := rfl
@[simp] theorem platformReset_clen (s : State) : (platformReset s).clen = 0 := rfl
@[simp] theorem platformReset_busy (s : State) : (platformReset s).busy = false := rfl

end Sys2Proof.Machine
end

