-- ==== Sys2Proof/Laws/Ops.lean ====
section
/-! SUPPORT. Laws/Ops.lean: for each shared ending and each command with a choice in it, everything it can answer. -/

namespace Sys2Proof.Machine

/-- What PACK and DECODE's ending answers, if it answers a next state. -/
theorem storeBytes_next {s t : State} {bs : List Byte} (h : storeBytes s bs = .next t) :
    bs.length ≤ byteCap s.params ∧
      t = complete { s with bytes := memSetList s.bytes 0 bs, blen := BitVec.ofNat 28 bs.length } := by
  unfold storeBytes at h
  split at h
  · rename_i hle
    cases h
    exact ⟨hle, rfl⟩
  · cases h

theorem storeBytes_eq {s : State} {bs : List Byte} (h : bs.length ≤ byteCap s.params) :
    storeBytes s bs =
      .next (complete { s with bytes := memSetList s.bytes 0 bs, blen := BitVec.ofNat 28 bs.length }) :=
  if_pos h

/-- The codeword's bytes fit BYTES while CLEN ≤ C_CAP (R10, R114). -/
theorem packBytes_fit {s : State} (h : s.clen ≤ cCap s.params) :
    (packBytes s.cbuf).length ≤ byteCap s.params := by
  rw [packBytes_length, ← ceilDiv_cCap]
  exact ceilDiv_eight_mono h

/-- The message's bytes fit BYTES while MLEN ≤ MAX_M (R122). -/
theorem wholeBytes_fit {s : State} (h : s.mlen ≤ maxM s.params) :
    (wholeBytes s.mbuf).length ≤ byteCap s.params := by
  have h' : s.mbuf.length ≤ 8 * s.params.msgBytes := h
  rw [wholeBytes_length]
  simp only [byteCap]
  omega

theorem execEncode_cases (s : State) :
    (maxM s.params < 8 * s.blen.toNat ∧ execEncode s = .next (raise s .capacity)) ∨
      (8 * s.blen.toNat ≤ maxM s.params ∧
        execEncode s = .next (complete { s with mbuf := readBits s s.blen.toNat })) := by
  simp only [execEncode]
  split
  · exact .inl ⟨by assumption, rfl⟩
  · exact .inr ⟨by omega, rfl⟩

theorem execUnpack_cases (b : Arg) (s : State) :
    (cCap s.params < b.toNat ∧ execUnpack b s = .next (raise s .capacity)) ∨
      (b.toNat ≤ cCap s.params ∧ ceilDiv b.toNat 8 ≠ s.blen.toNat ∧
        execUnpack b s = .next (raise s .lengthMismatch)) ∨
      (b.toNat ≤ cCap s.params ∧ ceilDiv b.toNat 8 = s.blen.toNat ∧
        execUnpack b s =
          .next (complete { s with cbuf := slice (readBits s s.blen.toNat) 0 b.toNat })) := by
  simp only [execUnpack]
  split
  · exact .inl ⟨by assumption, rfl⟩
  · split
    · exact .inr (.inl ⟨by omega, by assumption, rfl⟩)
    · rename_i h₁ h₂
      exact .inr (.inr ⟨by omega, by simpa using h₂, rfl⟩)

theorem execSplit_cases (m : Arg) (s : State) :
    (m.toNat + paramK s.params ≠ s.clen ∧ execSplit m s = .next (raise s .lengthMismatch)) ∨
      (m.toNat + paramK s.params = s.clen ∧
        execSplit m s = .next (complete { s with
          mbuf := slice s.cbuf 0 m.toNat
          rcrc := seqWord (slice s.cbuf m.toNat (m.toNat + paramK s.params)) })) := by
  simp only [execSplit]
  split
  · exact .inl ⟨by assumption, rfl⟩
  · rename_i h
    exact .inr ⟨by simpa using h, rfl⟩

theorem execFlip_cases (i : Arg) (s : State) :
    (s.params.hasFlip = false ∧ execFlip i s = .next (raise s .illegalCommand)) ∨
      (s.params.hasFlip = true ∧ s.clen ≤ i.toNat ∧ execFlip i s = .next (raise s .invalidBitIndex)) ∨
      (s.params.hasFlip = true ∧ i.toNat < s.clen ∧
        execFlip i s = .next (complete { s with cbuf := s.cbuf.modify i.toNat (fun b => xor b true) })) := by
  simp only [execFlip]
  split
  · exact .inl ⟨by assumption, rfl⟩
  · rename_i hf
    split
    · exact .inr (.inl ⟨by simpa using hf, by assumption, rfl⟩)
    · exact .inr (.inr ⟨by simpa using hf, by omega, rfl⟩)

end Sys2Proof.Machine
end

