-- ==== Sys2Proof/Laws/Step.lean ====
section
/-! SUPPORT. Laws/Step.lean: everything one move of the host and one step can do, said once. -/

namespace Sys2Proof.Machine

/-- What a BusRead answers, if it answers a next state: only the record and the draw counter change (R71). -/
theorem busRead_next {s t : State} {off : Nat} {view : Word → Word} (h : busRead s off view = .next t) :
    (s.busy = true → readHazard (target s.params off) = false) ∧
      t = { s with
        record := s.record ++ [view (busValue s off)]
        draws := s.draws + readDraws (target s.params off) } := by
  unfold busRead at h
  split at h
  · cases h
  · rename_i hb
    cases h
    refine ⟨fun hbusy => ?_, rfl⟩
    simpa [hbusy] using hb

/-- What a BusWrite answers, if it answers a next state (R27, R35, R62 to R64). -/
theorem busWrite_next {s t : State} {off : Nat} {v : Word} {strb : BitVec 4}
    (h : busWrite s off v strb = .next t) :
    t = s ∨
      (target s.params off = .reg .cmd ∧ strb = fullStrobe ∧
        ((s.busy = true ∧ t = dropCommand s) ∨ (s.busy = false ∧ t = accept s v))) ∨
      (target s.params off = .reg .blen ∧ s.busy = false ∧ strb = fullStrobe ∧
        v.toNat ≤ byteCap s.params ∧ t = { s with blen := v.setWidth 28 }) ∨
      (∃ w, target s.params off = .window w ∧ s.busy = false ∧ t = writeWindow s w v strb) := by
  unfold busWrite at h
  split at h <;> rename_i ht
  · cases h
    unfold writeCmd
    split
    · rename_i hs
      split
      · exact .inr (.inl ⟨ht, hs, .inl ⟨by assumption, rfl⟩⟩)
      · exact .inr (.inl ⟨ht, hs, .inr ⟨by simp_all, rfl⟩⟩)
    · exact .inl rfl
  · split at h
    · cases h
    · rename_i hb
      cases h
      unfold writeBlen
      split
      · rename_i hs
        exact .inr (.inr (.inl ⟨ht, by simpa using hb, hs.1, hs.2, rfl⟩))
      · exact .inl rfl
  · split at h
    · cases h
    · rename_i w hb
      cases h
      exact .inr (.inr (.inr ⟨_, ht, by simpa using hb, rfl⟩))
  all_goals cases h; exact .inl rfl

@[simp] theorem statusWord_busy (s : State) : (statusWord s).getLsbD 0 = s.busy := by
  unfold statusWord
  generalize s.busy = b
  exact (BitVec.getLsbD_append (n := 31) (m := 1) (i := 0)).trans (by simp)

/-- What one input does, if it answers a next state. -/
theorem perform_next {s t : State} {i : Input} (h : perform s i = .next t) :
    (∃ off view, busRead s off view = .next t) ∨
      (∃ off v strb, i = .write off v strb ∧ busWrite s off v strb = .next t) ∨
      (i = .wait ∧ s.busy = true ∧ t = { s with inputs := .wait :: s.inputs }) ∨
      (i = .wait ∧ s.busy = false ∧ t = s) ∨
      (i = .reset ∧ t = platformReset s) := by
  cases i with
  | read off => exact .inl ⟨off, id, h⟩
  | readLane off lane => exact .inl ⟨off, laneOf lane, h⟩
  | write off v strb => exact .inr (.inl ⟨off, v, strb, rfl, h⟩)
  | wait =>
    simp only [perform, statusWord_busy] at h
    split at h
    · cases h; exact .inr (.inr (.inl ⟨rfl, by assumption, rfl⟩))
    · cases h; exact .inr (.inr (.inr (.inl ⟨rfl, by simp_all, rfl⟩)))
  | reset => cases h; exact .inr (.inr (.inr (.inr ⟨rfl, rfl⟩)))

/-- What the host's move does: nothing once its sequence is exhausted, else its first input. -/
theorem hostMove_cases (s : State) :
    (s.inputs = [] ∧ hostMove s = .next s) ∨
      ∃ i rest, s.inputs = i :: rest ∧ hostMove s = perform { s with inputs := rest } i := by
  unfold hostMove
  split
  · exact .inl ⟨by assumption, rfl⟩
  · exact .inr ⟨_, _, by assumption, rfl⟩

/-- What one step does: the host's move while idle, a completion or the host's move while busy. -/
theorem step_cases {s : State} (hl : legalParams s.params = true) :
    (s.inflight = none ∧ step s = hostMove s) ∨
      (∃ w, s.inflight = some ⟨w, 0⟩ ∧ step s = completeWord w s) ∨
      (∃ w n, s.inflight = some ⟨w, n + 1⟩ ∧
        step s = hostMove { s with inflight := some ⟨w, n⟩ }) := by
  simp only [step, hl, if_true, turn]
  split
  · exact .inl ⟨by assumption, rfl⟩
  · rename_i c hc
    obtain ⟨w, left⟩ := c
    cases left with
    | zero => exact .inr (.inl ⟨w, hc, rfl⟩)
    | succ n => exact .inr (.inr ⟨w, n, hc, rfl⟩)

/-- While idle, a step is the host's first input. -/
theorem step_idle {s : State} {i : Input} {rest : List Input} (hl : legalParams s.params = true)
    (hb : s.busy = false) (hi : s.inputs = i :: rest) : step s = perform { s with inputs := rest } i := by
  have hn : s.inflight = none := by simpa [State.busy] using hb
  simp [step, hl, turn, hn, hostMove, hi]

/-- While a command stays in flight, a step is the host's first input with one move fewer left. -/
theorem step_busy {s : State} {w : Word} {n : Nat} {i : Input} {rest : List Input}
    (hl : legalParams s.params = true) (hn : s.inflight = some ⟨w, n + 1⟩) (hi : s.inputs = i :: rest) :
    step s = perform { s with inflight := some ⟨w, n⟩, inputs := rest } i := by
  simp [step, hl, turn, hn, busyTurn, hostMove, hi]

/-- A step that answers a next state starts from a legal build. -/
theorem step_next_legal {s t : State} (h : step s = .next t) : legalParams s.params = true := by
  unfold step at h
  split at h
  · assumption
  · cases h

/-- The completion of a word is a command's, or IllegalCommand. -/
theorem completeWord_cases (w : Word) (s : State) :
    (∃ i, decode s.params.hasFlip w = .ok i ∧ completeWord w s = exec i s) ∨
      (∃ r, decode s.params.hasFlip w = .error r ∧
        completeWord w s = .next (raise s .illegalCommand)) := by
  unfold completeWord
  split
  · exact .inl ⟨_, by assumption, rfl⟩
  · exact .inr ⟨_, by assumption, rfl⟩

@[simp] theorem withFetchWord_inflight (s : State) (nbits w : Nat) :
    (s.withFetchWord nbits w).inflight = some ⟨tableWord nbits w, 0⟩ := rfl

@[simp] theorem withFetchWord_params (s : State) (nbits w : Nat) :
    (s.withFetchWord nbits w).params = s.params := rfl

end Sys2Proof.Machine
end

