-- ==== Sys2Proof/Laws/Bus.lean ====
section
/-! SUPPORT. Laws/Bus.lean: what an offset names, by its word index off / 4 (20_memory.md rules R60 to R64), that window
writes keep BYTES' form, and everything one move of the host can change. -/

namespace Sys2Proof.Machine

theorem aligned_offset {off q : Nat} (h : off / 4 = q) : off - off % 4 = 4 * q := by omega

/-- A register's offset, whatever its two low bits (R61). -/
theorem target_reg (p : Params) {off q : Nat} {r : Reg} (h : off / 4 = q) (hr : regAt (4 * q) = some r) :
    target p off = .reg r := by
  simp only [target, aligned_offset h, hr]

theorem regAt_none_of_le {q : Nat} (h : 11 ≤ q) : regAt (4 * q) = none := by
  unfold regAt
  split <;> first | rfl | omega

/-- A window word's offset (R62). -/
theorem target_window (p : Params) {off w : Nat} (h : off / 4 = 1024 + w) (hw : WindowWord p (off / 4)) :
    target p off = .window w := by
  have e : (4 * (1024 + w) - windowBase) / 4 = w := by
    simp only [windowBase]
    omega
  have hb : windowBase ≤ 4 * (1024 + w) ∧ 4 * (1024 + w) < windowEnd p := by
    simp only [WindowWord, windowEnd, windowBase, ceilDiv] at *
    omega
  simp only [target, aligned_offset h, regAt_none_of_le (show 11 ≤ 1024 + w by omega), if_pos hb, e]

/-- An unmapped offset (R64). -/
theorem target_unmapped (p : Params) {off : Nat} (hw : UnmappedWord p (off / 4)) :
    target p off = .unmapped := by
  have hq : 11 ≤ off / 4 := by
    unfold UnmappedWord at hw
    omega
  have hb : ¬ (windowBase ≤ 4 * (off / 4) ∧ 4 * (off / 4) < windowEnd p) := by
    simp only [UnmappedWord, windowEnd, windowBase, ceilDiv] at *
    omega
  simp only [target, aligned_offset rfl, regAt_none_of_le hq, if_neg hb]

/-- Only the word at offset 0x010 is CMD (R21). -/
theorem word_of_target_cmd {p : Params} {off : Nat} (h : target p off = .reg .cmd) : off / 4 = 4 := by
  simp only [target, aligned_offset rfl] at h
  split at h
  · rename_i r hr
    cases h
    unfold regAt at hr
    split at hr <;> first | omega | cases hr
  · split at h <;> cases h

/-- Bits 8L+7:8L of a window word are lane L (R62, R67). -/
theorem windowWord_getLsbD (s : State) (w : Nat) {lane b : Nat} (h1 : lane < 4) (h2 : b < 8) :
    (windowWord s w).getLsbD (8 * lane + b) = (laneByte s (4 * w + lane)).getLsbD b := by
  have e1 := fun i => BitVec.getLsbD_append (n := 24) (m := 8) (i := i) (y := laneByte s (4 * w))
    (x := (laneByte s (4 * w + 3) ++ laneByte s (4 * w + 2) ++ laneByte s (4 * w + 1) : BitVec 24))
  have e2 := fun i => BitVec.getLsbD_append (n := 16) (m := 8) (i := i) (y := laneByte s (4 * w + 1))
    (x := (laneByte s (4 * w + 3) ++ laneByte s (4 * w + 2) : BitVec 16))
  have e3 := fun i => BitVec.getLsbD_append (n := 8) (m := 8) (i := i) (y := laneByte s (4 * w + 2))
    (x := laneByte s (4 * w + 3))
  refine (e1 _).trans ?_
  split
  · obtain rfl : lane = 0 := by omega
    simp
  · refine (e2 _).trans ?_
    split
    · obtain rfl : lane = 1 := by omega
      congr 1
      omega
    · refine (e3 _).trans ?_
      split
      · obtain rfl : lane = 2 := by omega
        congr 1
        omega
      · obtain rfl : lane = 3 := by omega
        congr 1
        omega

/-- Offset bits 1:0 are ignored (R61). -/
theorem target_aligned (p : Params) (off : Nat) : target p off = target p (4 * (off / 4)) := by
  simp only [target, aligned_offset rfl, Nat.mul_mod_right, Nat.sub_zero]

theorem busValue_aligned (s : State) (off : Nat) : busValue s off = busValue s (4 * (off / 4)) := by
  simp only [busValue, ← target_aligned]

/-- What the host reads at a register's offset, whatever its two low bits (R61). -/
theorem busValue_reg (s : State) {off q : Nat} {r : Reg} (h : off / 4 = q) (hr : regAt (4 * q) = some r) :
    busValue s off = regValue s r := by
  simp only [busValue, target_reg s.params h hr]

/-- One lane of a word, as `rdb` records it (R98). -/
theorem laneOf_getLsbD (lane : Fin 4) (v : Word) (b : Nat) :
    (laneOf lane v).getLsbD b = (decide (b < 8) && v.getLsbD (8 * lane.val + b)) := by
  simp only [laneOf, BitVec.getLsbD_setWidth, BitVec.getLsbD_extractLsb']
  by_cases h : b < 8
  · simp [h, show b < 32 by omega]
  · simp [h]

/-- A window write keeps the canonical form and the bound on indices (R38, R62). -/
theorem writeLanes_keep (p : Params) (w : Nat) (v : Word) (strb : BitVec 4) (lanes : List Nat) {m : Memory}
    (h : Memory.wf m) (hlt : ∀ c ∈ m, c.1 < byteCap p) :
    Memory.wf (lanes.foldl (writeLane p w v strb) m) ∧
      ∀ c ∈ lanes.foldl (writeLane p w v strb) m, c.1 < byteCap p := by
  induction lanes generalizing m with
  | nil => exact ⟨h, hlt⟩
  | cons a lanes ih =>
    apply ih
    · unfold writeLane
      split
      · exact memSet_wf h _ _
      · exact h
    · unfold writeLane
      split
      · rename_i hc
        intro c hm
        rcases mem_memSet hm with rfl | hm
        · exact hc.2
        · exact hlt c hm
      · exact hlt

/-- Everything one move of the host can change, if it answers a next state: a reset; a dropped or an accepted command;
the host's own lists and the draw counter; BLEN; the window. -/
theorem hostMove_next {s t : State} (h : hostMove s = .next t) :
    (∃ rest, s.inputs = .reset :: rest ∧ t = platformReset { s with inputs := rest }) ∨
      (∃ off v rest, s.inputs = .write off v fullStrobe :: rest ∧ target s.params off = .reg .cmd ∧
        s.busy = true ∧ t = dropCommand { s with inputs := rest }) ∨
      (∃ off v rest, s.inputs = .write off v fullStrobe :: rest ∧ target s.params off = .reg .cmd ∧
        s.busy = false ∧ t = accept { s with inputs := rest } v) ∨
      (∃ inputs record draws,
        t = { s with inputs := inputs, record := record, draws := draws }) ∨
      (s.busy = false ∧ ∃ (v : Word) (inputs : List Input), v.toNat ≤ byteCap s.params ∧
        t = { s with inputs := inputs, blen := v.setWidth 28 }) ∨
      (s.busy = false ∧ ∃ w v strb inputs, t = writeWindow { s with inputs := inputs } w v strb) := by
  rcases hostMove_cases s with ⟨_, h1⟩ | ⟨i, rest, h0, h1⟩
  · rw [h1] at h
    cases h
    exact .inr (.inr (.inr (.inl ⟨_, _, _, rfl⟩)))
  · rw [h1] at h
    rcases perform_next h with ⟨off, view, h2⟩ | ⟨off, v, strb, rfl, h2⟩ | ⟨rfl, _, rfl⟩ | ⟨rfl, _, rfl⟩ |
      ⟨rfl, rfl⟩
    · obtain ⟨_, rfl⟩ := busRead_next h2
      exact .inr (.inr (.inr (.inl ⟨_, _, _, rfl⟩)))
    · rcases busWrite_next h2 with rfl | ⟨ht, rfl, ⟨hb, rfl⟩ | ⟨hb, rfl⟩⟩ | ⟨_, hb, _, hv, rfl⟩ |
        ⟨w, _, hb, rfl⟩
      · exact .inr (.inr (.inr (.inl ⟨_, _, _, rfl⟩)))
      · exact .inr (.inl ⟨off, v, rest, h0, ht, hb, rfl⟩)
      · exact .inr (.inr (.inl ⟨off, v, rest, h0, ht, hb, rfl⟩))
      · exact .inr (.inr (.inr (.inr (.inl ⟨hb, v, rest, hv, rfl⟩))))
      · exact .inr (.inr (.inr (.inr (.inr ⟨hb, w, v, strb, rest, rfl⟩))))
    · exact .inr (.inr (.inr (.inl ⟨_, _, _, rfl⟩)))
    · exact .inr (.inr (.inr (.inl ⟨_, _, _, rfl⟩)))
    · exact .inl ⟨rest, h0, rfl⟩

end Sys2Proof.Machine
end

