-- ==== Sys2Proof/Laws/PerInstr.lean ====
section
/-! SUPPORT. Laws/PerInstr.lean: the statements made once per command. Family Fields: the two fields of a command's word
are the OP and the ARG of 30_encoding.md rule R92. -/

namespace Sys2Proof.Laws.Fields

/-- Bits 31:28 of the command's word are its OP, bits 27:0 its operand (R90, R92). -/
def Statement (i : Instr) : Prop := opField (encode i) = opcode i ∧ argField (encode i) = operand i

theorem getLsbD_commandWord (op : BitVec 4) (a : Arg) (k : Nat) :
    (op ++ a : Word).getLsbD k = if k < 28 then a.getLsbD k else op.getLsbD (k - 28) :=
  BitVec.getLsbD_append

theorem fields_of_append (op : BitVec 4) (a : Arg) :
    opField (op ++ a) = op ∧ argField (op ++ a) = a := by
  constructor
  · apply BitVec.eq_of_getLsbD_eq
    intro k hk
    simp only [opField, BitVec.getLsbD_extractLsb', getLsbD_commandWord]
    simp [hk]
  · apply BitVec.eq_of_getLsbD_eq
    intro k hk
    simp only [argField, BitVec.getLsbD_extractLsb', getLsbD_commandWord]
    simp [hk]

theorem nop : Statement .nop := fields_of_append _ _
theorem encode : Statement .encode := fields_of_append _ _
theorem pack : Statement .pack := fields_of_append _ _
theorem unpack (b : Arg) : Statement (.unpack b) := fields_of_append _ _
theorem decode : Statement .decode := fields_of_append _ _
theorem crc : Statement .crc := fields_of_append _ _
theorem verify : Statement .verify := fields_of_append _ _
theorem assemble : Statement .assemble := fields_of_append _ _
theorem split (m : Arg) : Statement (.split m) := fields_of_append _ _
theorem flip (k : Arg) : Statement (.flip k) := fields_of_append _ _
theorem clear : Statement .clear := fields_of_append _ _

end Sys2Proof.Laws.Fields
end

