-- ==== Sys2Proof/Laws/Decode.lean ====
section
/-! SUPPORT. Laws/Decode.lean: the fields of a command word as numbers, the word as its fields, and what a command
without an operand decodes to. -/

namespace Sys2Proof

theorem opField_toNat (w : Word) : (opField w).toNat = Machine.opOf w := by
  have := w.isLt
  simp only [opField, Machine.opOf, BitVec.extractLsb'_toNat, Nat.shiftRight_eq_div_pow]
  omega

theorem argField_toNat (w : Word) : (argField w).toNat = Machine.argNatOf w := by
  simp [argField, Machine.argNatOf, BitVec.extractLsb'_toNat]

/-- A word is its OP followed by its ARG (R90). -/
theorem word_eq_fields (w : Word) : (opField w ++ argField w : Word) = w := by
  apply BitVec.eq_of_getLsbD_eq
  intro k hk
  rw [Laws.Fields.getLsbD_commandWord]
  simp only [opField, argField, BitVec.getLsbD_extractLsb']
  split
  · simp [*]
  · have e : 28 + (k - 28) = k := by omega
    simp only [e, Bool.and_eq_right_iff_imp, decide_eq_true_eq]
    intro
    omega

theorem plainCommand_eq_ok {op : BitVec 4} {a : Arg} {i j : Instr} :
    plainCommand op a i = .ok j ↔ a = 0 ∧ j = i := by
  unfold plainCommand
  split
  · rename_i h
    exact ⟨fun e => ⟨h, (Except.ok.inj e).symm⟩, fun e => by rw [e.2]⟩
  · rename_i h
    exact ⟨(fun e => nomatch e), fun e => absurd e.1 h⟩

theorem plainCommand_eq_error {op : BitVec 4} {a : Arg} {i : Instr} :
    (∃ r, plainCommand op a i = .error r) ↔ a ≠ 0 := by
  unfold plainCommand
  split <;> simp_all

end Sys2Proof
end

