-- ==== Sys2Proof/Tests/Slice0.lean ====
section
/-! SUPPORT. Tests/Slice0.lean: expected values come from 95_test_vectors.md and from the spec's encodings written out
by hand; each test is one step or one operation. The witnesses meet the hypotheses of the statements. -/

namespace Sys2Proof.Tests

open Sys2Proof Sys2Proof.Machine

/-! ### Helpers -/

/-- A bit sequence written as 0s and 1s. -/
def bits (l : List Nat) : Bits := l.map (fun n => n = 1)

/-- The bits of 'A' (95 §2.4). -/
def bitsA : Bits := bits [0, 1, 0, 0, 0, 0, 0, 1]

/-- The codeword of 'A' with P = 1101 (95 §2.9). -/
def codeA : Bits := bits [0, 1, 0, 0, 0, 0, 0, 1, 0, 0, 1]

/-- The build of program P5: MSG_BYTES = 2, so BYTE_CAP = 3 and C_CAP = 19. -/
def smallBuild : Params := { Params.default with msgBytes := 2 }

def small : State := { State.reset with params := smallBuild }

/-- A small state with everything in it. -/
def full : State :=
  { small with
    mbuf := bitsA, cbuf := codeA, bytes := [(0, 0x41), (1, 0x20)], blen := 2, crcv := 1, rcrc := 1,
    errSticky := true, cmdLost := true }

/-- A command in flight with one more move of the host before its completion. -/
def busy (w : Word) : State := { full with inflight := some ⟨w, 1⟩ }

/-- The state with one input left. -/
def onInput (s : State) (i : Input) : State := { s with inputs := [i] }

/-- What a field is after a step or a command, if it answers a next state. -/
def after {α : Type} (o : Host.Outcome State Fault Refusal) (f : State → α) : Option α := (nextState? o).map f

/-! ### Decoding: one word per command, bit by bit from R90 and R92 -/

theorem test_decode_nop : decode true 0b00000000000000000000000000000000#32 = .ok .nop := by decide
theorem test_decode_encode : decode true 0b00010000000000000000000000000000#32 = .ok .encode := by decide
theorem test_decode_pack : decode true 0b00100000000000000000000000000000#32 = .ok .pack := by decide
theorem test_decode_unpack :
    decode true 0b00110000000000000000000001001011#32 = .ok (.unpack 75#28) := by decide
theorem test_decode_decode : decode true 0b01000000000000000000000000000000#32 = .ok .decode := by decide
theorem test_decode_crc : decode true 0b01010000000000000000000000000000#32 = .ok .crc := by decide
theorem test_decode_verify : decode true 0b01100000000000000000000000000000#32 = .ok .verify := by decide
theorem test_decode_assemble : decode true 0b01110000000000000000000000000000#32 = .ok .assemble := by decide
theorem test_decode_split :
    decode true 0b10000000000000000000000001001000#32 = .ok (.split 72#28) := by decide
theorem test_decode_flip :
    decode true 0b10011111111111111111111111111111#32 = .ok (.flip 0xFFFFFFF#28) := by decide
theorem test_decode_clear : decode true 0b11110000000000000000000000000000#32 = .ok .clear := by decide
theorem test_decode_reserved : decode true 0xEFFFFFFF#32 = .error (.reservedOp 0xE#4) := by decide
theorem test_decode_nop_arg : decode true 0x00000001#32 = .error (.argNotZero 0#4 1#28) := by decide
theorem test_decode_no_flip : decode false 0x90000005#32 = .error .flipAbsent := by decide
theorem test_table_word : decodeTableWord 32 0x80000048 = some (.split 72#28) := by decide
theorem test_table_refuses : decodeTableWord 32 0xA0000000 = none := by decide

/-! ### Well-formedness: an ill-formed term for each check -/

theorem smoke_flip_absent : WellFormed false (.flip 5#28) = false := by decide
theorem smoke_flip_present : WellFormed true (.flip 5#28) = true := by decide
theorem smoke_build_default : legalParams Params.default = true := by decide
theorem smoke_build_k_zero : legalParams { Params.default with P := [true] } = false := by decide
theorem smoke_build_k_32 : legalParams { Params.default with P := true :: zeros 32 } = false := by decide
theorem smoke_build_k_31 : legalParams { Params.default with P := true :: zeros 31 } = true := by decide
theorem smoke_build_p0 : legalParams { Params.default with P := [false, true, false, true] } = false := by decide
theorem smoke_build_no_bytes : legalParams { Params.default with msgBytes := 0 } = false := by decide
theorem smoke_build_too_many : legalParams { Params.default with msgBytes := 2 ^ 25 } = false := by decide

/-! ### The commands (95 §2.2 to §2.11) -/

theorem test_nop : after (exec .nop { full with vdone := true, vmatch := true }) statusWord = some 0x300#32 := by decide

theorem test_encode :
    after (exec .encode { small with bytes := [(0, 0x48), (1, 0x69)], blen := 2 }) State.mbuf =
      some (bits [0, 1, 0, 0, 1, 0, 0, 0, 0, 1, 1, 0, 1, 0, 0, 1]) := by decide
/-- P5: 24 > 16. -/
theorem test_encode_capacity :
    after (exec .encode { small with bytes := [(0, 0x41), (1, 0x42), (2, 0x43)], blen := 3 }) statusWord =
      some 0x120#32 := by decide

theorem test_pack :
    after (exec .pack { small with cbuf := codeA, bytes := [(2, 0x77)] }) (fun t => (t.bytes, t.blen)) =
      some ([(0, 0x41), (1, 0x20), (2, 0x77)], 2) := by decide
theorem test_pack_empty : after (exec .pack small) (fun t => (t.bytes, t.blen)) = some ([], 0) := by decide

/-- Non-zero padding 11111 is ignored. -/
theorem test_unpack_padding :
    after (exec (.unpack 11) { small with bytes := [(0, 0x41), (1, 0x3F)], blen := 2 }) State.cbuf =
      some codeA := by decide
/-- 20 > 19 is Capacity, checked before the length. -/
theorem test_unpack_capacity :
    after (exec (.unpack 20) { small with blen := 1 }) statusWord = some 0x120#32 := by decide

theorem test_decode_text :
    after (exec .decode { small with mbuf := bitsA ++ [true] }) (fun t => (t.bytes, t.blen)) =
      some ([(0, 0x41)], 1) := by decide
theorem test_decode_short :
    after (exec .decode { small with mbuf := bits [0, 1, 0, 0, 0, 0, 0] }) (fun t => (t.bytes, t.blen)) =
      some ([], 0) := by decide

theorem test_crc :
    after (exec .crc { small with mbuf := bits [1, 1, 0, 1, 0, 0, 1, 1, 1, 0, 1, 1] }) State.crcv =
      some 0x7#32 := by decide
/-- 95 §2.3: K = 8, P = 100000111. -/
theorem test_crc_k8 :
    after (exec .crc { small with
      params := { smallBuild with P := bits [1, 0, 0, 0, 0, 0, 1, 1, 1] }, mbuf := bitsA }) State.crcv =
      some 0xC0#32 := by decide

theorem test_verify_match : after (exec .verify { small with mbuf := bitsA, rcrc := 1 }) statusWord = some 0x6#32 := by
  decide
theorem test_verify_mismatch :
    after (exec .verify { small with mbuf := bitsA, rcrc := 3 }) (fun t => (statusWord t, t.crcv)) =
      some (0x2#32, 0x1#32) := by decide

theorem test_assemble : after (exec .assemble { small with mbuf := bitsA, crcv := 1 }) State.cbuf = some codeA := by
  decide
/-- A stale CRCV is used as it stands. -/
theorem test_assemble_stale :
    after (exec .assemble { small with crcv := 5 }) State.cbuf = some (bits [1, 0, 1]) := by decide

theorem test_split :
    after (exec (.split 8) { small with cbuf := codeA }) (fun t => (t.mbuf, t.rcrc)) = some (bitsA, 1#32) := by decide
/-- A leftover bit. -/
theorem test_split_mismatch : after (exec (.split 7) { small with cbuf := codeA }) statusWord = some 0x110#32 := by
  decide

theorem test_flip :
    after (exec (.flip 1) { small with cbuf := codeA }) State.cbuf =
      some (bits [0, 0, 0, 0, 0, 0, 0, 1, 0, 0, 1]) := by decide
theorem test_flip_past_end :
    after (exec (.flip 11) { small with cbuf := codeA }) (fun t => (statusWord t, t.cbuf)) =
      some (0x140#32, codeA) := by decide

theorem test_clear :
    after (exec .clear { full with err := .lengthMismatch }) (fun t => (statusWord t, t.blen, t.bytes)) =
      some (0#32, 0, [(0, 0x41), (1, 0x20)]) := by decide

/-! ### The host's side (95 §2.12) -/

def hello4 : State := { State.reset with bytes := [(0, 0x48), (1, 0x65), (2, 0x6C), (3, 0x6C)] }

theorem test_window_read :
    after (step { hello4 with inputs := [.read 0x1000] }) State.record = some [0x6C6C6548#32] := by decide
theorem test_window_write :
    after (step { hello4 with inputs := [.write 0x1000 0x000000AA#32 0b0001#4] }) State.bytes =
      some [(0, 0xAA), (1, 0x65), (2, 0x6C), (3, 0x6C)] := by decide
theorem test_window_write_low_bits :
    after (step { hello4 with inputs := [.write 0x1002 0x11223344#32 0b1111#4] }) State.bytes =
      some [(0, 0x44), (1, 0x33), (2, 0x22), (3, 0x11)] := by decide
theorem test_window_top :
    after (step { State.reset with bytes := [(256, 0x77)], inputs := [.read 0x1100] }) State.record =
      some [0x77#32] := by decide
theorem test_unmapped : after (step { State.reset with inputs := [.read 0x1104] }) State.record = some [0#32] := by
  decide
theorem test_blen_partial :
    after (step { State.reset with inputs := [.write 0x020 5#32 0b0011#4] }) State.blen = some 0 := by decide
theorem test_blen_too_big :
    after (step { State.reset with inputs := [.write 0x020 258#32 0b1111#4] }) State.blen = some 0 := by decide
/-- `rdb 1` records lane 1 of the window word. -/
theorem test_read_lane :
    after (step { hello4 with inputs := [rdbInput 1] }) State.record = some [0x65#32] := by decide
/-- CRCV and RCRC at their own offsets. -/
theorem test_remainder_registers :
    busValue { full with crcv := 5, rcrc := 2 } 0x024 = 5#32 ∧
      busValue { full with crcv := 5, rcrc := 2 } 0x028 = 2#32 := by decide
theorem test_cmd_reads_zero : after (step { State.reset with inputs := [.read 0x010] }) State.record = some [0#32] := by
  decide
/-- P4 (b): a CMD write while BUSY = 1 is dropped. -/
theorem test_dropped :
    after (step { busy 0x50000000#32 with
      cmdLost := false, inputs := [.write 0x010 0x70000000#32 0b1111#4] })
      (fun t => (t.cmdLost, t.inflight)) = some (true, some ⟨0x50000000#32, 0⟩) := by decide
theorem test_first_command : after (step (State.reset.withFetchWord 32 0x60000000)) statusWord = some 0x6#32 := by decide

/-! ### The assembler (R97) -/

theorem test_assembler_operand :
    parseCommand [' ', 'u', 'n', 'P', 'A', 'C', 'K', ' ', '0', 'x', '4', 'b', ' ', ';', 'x'] =
      some (some (.unpack 75#28)) := by decide
theorem test_assembler_refuses : parseCommand ['N', 'O', 'P', ' ', '3'] = none := by decide
theorem test_assembler_range :
    parseCommand ['F', 'L', 'I', 'P', ' ', '2', '6', '8', '4', '3', '5', '4', '5', '6'] = none := by decide
/-- RXCHECK refuses when m + K > 2^28 − 1. -/
theorem test_rxcheck_refuses : expand 3 (.rxCheck (2 ^ 28 - 3)) = none := by decide

/-! ### Witnesses: for each statement with hypotheses, a state and operands that meet them -/

theorem witness_DecodeInvertsEncode : WellFormed true (.flip 0xFFFFFFF#28) = true := by decide
theorem witness_EncodeInvertsDecode : decode true 0x80000048#32 = .ok (.split 72#28) := by decide
theorem witness_IllegalWordCompletesWithCode3 :
    legalParams State.reset.params = true ∧
      (State.reset.withFetchWord 32 0xA0000000).inflight = some ⟨0xA0000000#32, 0⟩ ∧
      IllegalWord true 0xA0000000#32 ∧ IllegalWord true 0xEFFFFFFF#32 ∧ IllegalWord false 0x90000000#32 ∧
      IllegalWord true 0x00000001#32 ∧ IllegalWord true 0xFFFFFFFF#32 := by
  unfold IllegalWord
  decide
theorem witness_EncodeWritesMessageBits :
    8 * ({ full with blen := 2 } : State).blen.toNat ≤ maxM smallBuild := by decide
theorem witness_PackWritesWireBytes :
    legalParams small.params = true ∧ ({ small with cbuf := zeros 19 } : State).clen ≤ cCap smallBuild := by decide
theorem witness_UnpackReadsCodewordBits :
    (19#28).toNat ≤ cCap smallBuild ∧
      ((19#28).toNat + 7) / 8 = ({ small with blen := 3 } : State).blen.toNat := by decide
theorem witness_DecodeWritesWholeBytes :
    legalParams small.params = true ∧ ({ small with mbuf := zeros 16 } : State).mlen ≤ maxM smallBuild := by decide
theorem witness_CrcWritesRemainder : legalParams full.params = true := by decide
theorem witness_VerifyComparesExactly : legalParams small.params = true := by decide
theorem witness_SplitSeparates :
    legalParams full.params = true ∧ (8#28).toNat + paramK full.params = full.clen := by decide
theorem witness_FlipInvertsOneBit : full.params.hasFlip = true ∧ (10#28).toNat < full.clen := by decide
theorem witness_ErrorCausesComplete :
    maxM smallBuild < 8 * ({ small with blen := 3 } : State).blen.toNat ∧
      cCap smallBuild < (20#28).toNat ∧
      ((17#28).toNat ≤ cCap smallBuild ∧ ((17#28).toNat + 7) / 8 ≠ full.blen.toNat) ∧
      (9#28).toNat + paramK full.params ≠ full.clen ∧
      ({ smallBuild with hasFlip := false } : Params).hasFlip = false ∧
      (full.params.hasFlip = true ∧ full.clen ≤ (11#28).toNat) := by decide
theorem witness_ErrorsKeepDataState :
    ∃ t, completeWord 0xB0000000#32 full = .next t ∧ t.err ≠ .none := ⟨_, rfl, by decide⟩
theorem witness_ErrorCodesByCause :
    (∃ t, completeWord 0xA0000000#32 full = .next t ∧ t.err = .illegalCommand) ∧
      (∃ t, completeWord 0x30000014#32 full = .next t ∧ t.err = .capacity) ∧
      (∃ t, completeWord 0x80000009#32 full = .next t ∧ t.err = .lengthMismatch) ∧
      (∃ t, completeWord 0x9000000B#32 full = .next t ∧ t.err = .invalidBitIndex) :=
  ⟨⟨_, rfl, by decide⟩, ⟨_, rfl, by decide⟩, ⟨_, rfl, by decide⟩, ⟨_, rfl, by decide⟩⟩
theorem witness_VerdictBitsAfterCompletion :
    (∃ t, completeWord 0x60000000#32 full = .next t ∧ t.vmatch = true) ∧
      ∃ t, completeWord 0x50000000#32 full = .next t := ⟨⟨_, rfl, by decide⟩, ⟨_, rfl⟩⟩
theorem witness_StickyBitsLeaveOnlyByClearOrReset :
    (∃ t, step (full.withFetchWord 32 0xF0000000) = .next t ∧ full.errSticky = true ∧ t.errSticky = false) ∧
      ∃ t, step { busy 0 with inputs := [.reset] } = .next t ∧ full.cmdLost = true ∧ t.cmdLost = false :=
  ⟨⟨_, rfl, by decide, by decide⟩, ⟨_, rfl, by decide, by decide⟩⟩
/-- A reset that heads the list while a completion is due: the completion runs, and a CRC clears no sticky bit. -/
theorem test_completion_before_reset :
    after (step { full.withFetchWord 32 0x50000000 with inputs := [.reset] })
      (fun t => (t.errSticky, t.cmdLost, t.inputs)) = some (true, true, [.reset]) := by decide
theorem witness_CmdLostOnlyByDroppedWrite :
    ∃ t, step { busy 0 with cmdLost := false, inputs := [.write 0x013 0#32 0b1111#4] } = .next t ∧
      t.cmdLost = true := ⟨_, rfl, by decide⟩
/-- The invariants R39, EveryWordCompletes, StepKeepsInvariants and LengthRegisters start from. -/
theorem witness_Inv : full.Inv :=
  ⟨by decide, by decide, by decide, by decide, by decide, by decide, by decide, by decide, by decide⟩
/-- Also for StepKeepsTheBuild. -/
theorem witness_StepKeepsInvariants : ∃ t, step (full.withFetchWord 32 0x50000000) = .next t := ⟨_, rfl⟩
theorem witness_CommandsWriteOnlyTheirTargets :
    (∃ t, exec .encode full = .next t ∧ t.mbuf ≠ full.mbuf) ∧
      (∃ t, exec (.flip 0) full = .next t ∧ t.cbuf ≠ full.cbuf) ∧
      (∃ t, exec .decode full = .next t ∧ t.blen ≠ full.blen) ∧
      (∃ t, exec .crc { full with mbuf := [true] } = .next t ∧ t.crcv ≠ full.crcv) ∧
      (∃ t, exec (.split 0) { full with cbuf := bits [1, 0, 1] } = .next t ∧ t.rcrc ≠ full.rcrc) ∧
      (∃ t, exec .clear full = .next t ∧ t.cmdLost ≠ full.cmdLost ∧ t.errSticky ≠ full.errSticky) :=
  ⟨⟨_, rfl, by decide⟩, ⟨_, rfl, by decide⟩, ⟨_, rfl, by decide⟩, ⟨_, rfl, by decide⟩, ⟨_, rfl, by decide⟩,
    ⟨_, rfl, by decide, by decide⟩⟩
theorem witness_CommandsStoreOnlyTheirBytes :
    (∃ t, exec .pack full = .next t ∧ (packBytes full.cbuf).length ≤ 2) ∧
      (∃ t, exec .decode full = .next t ∧ (wholeBytes full.mbuf).length ≤ 1) ∧
      ∃ t, exec .crc full = .next t := ⟨⟨_, rfl, by decide⟩, ⟨_, rfl, by decide⟩, ⟨_, rfl⟩⟩
/-- For the statements whose hypothesis is a legal build: SerialDivisionEqualsWindowDivision,
RemainderIsPolynomialRemainder, LeadingZerosDoNotMatter, ConstantRegisters; K at both ends of its range. -/
theorem witness_LegalBuild :
    legalParams smallBuild = true ∧ legalParams { smallBuild with P := bits [1, 0] } = true ∧
      legalParams { smallBuild with P := true :: zeros 31 } = true := by decide
theorem witness_DivisionCommandsArePure :
    full.params = ({ full with bytes := [], cbuf := [] } : State).params ∧
      full.mbuf = ({ full with bytes := [], cbuf := [] } : State).mbuf ∧
      full.rcrc = ({ full with bytes := [], cbuf := [] } : State).rcrc := by decide
/-- Also for EncodeThenDecodeRestores and FrameRoundTripMatches. -/
theorem witness_EncodeIsUnpackOfWholeBytes :
    legalParams full.params = true ∧ full.blen.toNat ≤ full.params.msgBytes := by decide
theorem witness_PackThenUnpackRestores : legalParams full.params = true ∧ full.clen ≤ cCap full.params := by decide
theorem witness_SplitInvertsAssemble :
    legalParams full.params = true ∧ full.mlen ≤ maxM full.params ∧
      full.crcv.toNat < 2 ^ paramK full.params := by decide
/-- Both kinds of generator, and a flip in the message and in the CRC segment. -/
theorem witness_SingleFlipDetection :
    (legalParams full.params = true ∧ full.params.hasFlip = true ∧ bitsA.length ≤ maxM full.params ∧
      full.cbuf = bitsA ++ rem full.params bitsA ∧ (0#28).toNat < full.clen ∧ (10#28).toNat < full.clen) ∧
    legalParams { smallBuild with P := bits [1, 0, 0, 0] } = true ∧
      bits [1, 0, 0, 0] = true :: zeros (paramK { smallBuild with P := bits [1, 0, 0, 0] }) := by decide
theorem witness_FlipShowsOnTheWire :
    legalParams full.params = true ∧ full.params.hasFlip = true ∧ full.clen ≤ cCap full.params ∧
      (10#28).toNat < full.clen := by decide
theorem witness_IllegalBuildIsRefused :
    legalParams { smallBuild with P := bits [0, 1] } = false ∧
      (bits [0, 1]).head? ≠ some true := by decide
theorem witness_StepRunsTheDecodedCommand :
    legalParams full.params = true ∧ (full.withFetchWord 32 0x9000000A).inflight = some ⟨0x9000000A#32, 0⟩ ∧
      decode full.params.hasFlip 0x9000000A#32 = .ok (.flip 10#28) := by decide
/-- Both ends of CMD's four offsets. -/
theorem witness_CommandWriteIsAccepted :
    legalParams full.params = true ∧ (onInput full (.write 0x013 0#32 0b1111#4)).busy = false ∧
      (onInput full (.write 0x013 0#32 0b1111#4)).inputs = .write 0x013 0#32 0b1111#4 :: [] ∧
      0x010 / 4 = 4 ∧ 0x013 / 4 = 4 := by decide
theorem witness_CommandWriteIsDroppedWhileBusy :
    legalParams (busy 0).params = true ∧
      (onInput (busy 0x50000000#32) (.write 0x010 7#32 0b1111#4)).inflight = some ⟨0x50000000#32, 0 + 1⟩ ∧
      (onInput (busy 0x50000000#32) (.write 0x010 7#32 0b1111#4)).inputs = .write 0x010 7#32 0b1111#4 :: [] ∧
      0x010 / 4 = 4 := by decide
/-- The first and last offset of each clause: MLEN to RCRC, BLEN, the window's two ends (BYTE_CAP = 3: one word). -/
theorem witness_BusyHazardFaults :
    legalParams (busy 0).params = true ∧
      (onInput (busy 0) (.read 0x018)).inflight = some ⟨0#32, 0 + 1⟩ ∧
      (onInput (busy 0) (.read 0x018)).inputs = .read 0x018 :: [] ∧
      (onInput (busy 0) (.readLane 0x1003 2)).inputs = .readLane 0x1003 2 :: [] ∧
      (onInput (busy 0) (.write 0x023 9#32 0b0001#4)).inputs = .write 0x023 9#32 0b0001#4 :: [] ∧
      (6 ≤ 0x018 / 4 ∧ 0x018 / 4 ≤ 10) ∧ (6 ≤ 0x02B / 4 ∧ 0x02B / 4 ≤ 10) ∧
      0x020 / 4 = 8 ∧ 0x023 / 4 = 8 ∧ WindowWord (busy 0).params (0x1000 / 4) ∧
      WindowWord (busy 0).params (0x1003 / 4) ∧ ¬ WindowWord (busy 0).params (0x1004 / 4) := by
  unfold WindowWord
  decide
/-- The first and last offset of each clause; STATUS and CMD among the first six words. -/
theorem witness_BusyReadsWellDefined :
    legalParams (busy 0).params = true ∧
      (onInput (busy 0) (.read 0x014)).inflight = some ⟨0#32, 0 + 1⟩ ∧
      (onInput (busy 0) (.read 0x014)).inputs = .read 0x014 :: [] ∧
      0x000 / 4 ≤ 5 ∧ 0x010 / 4 = 4 ∧ 0x017 / 4 = 5 ∧ UnmappedWord (busy 0).params (0x02C / 4) ∧
      UnmappedWord (busy 0).params (0xFFF / 4) ∧ UnmappedWord (busy 0).params (0x1004 / 4) ∧
      ¬ UnmappedWord (busy 0).params (0x1000 / 4) := by
  unfold UnmappedWord
  decide
theorem witness_InFlightOperandsAreFrozen :
    ∃ t, (busy 0).busy = true ∧ step (busy 0) = .next t ∧ t.busy = true := ⟨_, by decide, rfl, by decide⟩
theorem witness_PollingReachesCompletion :
    legalParams (busy 0).params = true ∧ (busy 0).inflight = some ⟨0#32, 1⟩ ∧ (busy 0).inputs = [] ∧
      ({ busy 0 with inputs := [.wait] } : State).inputs = .wait :: [] := by decide
theorem witness_WindowReadLanes :
    legalParams full.params = true ∧ (onInput full (.read 0x1002)).busy = false ∧
      (onInput full (.read 0x1002)).inputs = .read 0x1002 :: [] ∧ 0x1002 / 4 = 1024 + 0 ∧
      WindowWord full.params (0x1002 / 4) ∧
      (0x1103 / 4 = 1024 + 64 ∧ WindowWord Params.default (0x1103 / 4)) := by
  unfold WindowWord
  decide
theorem witness_WindowWriteLanes :
    legalParams full.params = true ∧ (onInput full (.write 0x1002 5#32 0b1010#4)).busy = false ∧
      (onInput full (.write 0x1002 5#32 0b1010#4)).inputs = .write 0x1002 5#32 0b1010#4 :: [] ∧
      0x1002 / 4 = 1024 + 0 ∧ WindowWord full.params (0x1002 / 4) := by
  unfold WindowWord
  decide
theorem witness_ByteWriteStatement :
    legalParams full.params = true ∧ (onInput full (wrbInput 2 0x7F#8)).busy = false ∧ 2 < byteCap full.params ∧
      (onInput full (wrbInput 2 0x7F#8)).inputs = wrbInput 2 0x7F#8 :: [] := by decide
theorem witness_IgnoredRegisterWrites :
    legalParams full.params = true ∧ (onInput full (.write 0x010 1#32 0b0111#4)).busy = false ∧
      (onInput full (.write 0x010 1#32 0b0111#4)).inputs = .write 0x010 1#32 0b0111#4 :: [] ∧
      (0x010 / 4 ∈ [4, 8] ∧ 0b0111#4 ≠ 0b1111#4) ∧ (0x020 / 4 ∈ [4, 8] ∧ 0#4 ≠ 0b1111#4) ∧
      0x000 / 4 ∈ [0, 1, 2, 3, 5, 6, 7, 9, 10] ∧ 0x02B / 4 ∈ [0, 1, 2, 3, 5, 6, 7, 9, 10] ∧
      (onInput (busy 0) (.write 0x013 1#32 0b1110#4)).inflight = some ⟨0#32, 0 + 1⟩ ∧
      (onInput (busy 0) (.write 0x013 1#32 0b1110#4)).inputs = .write 0x013 1#32 0b1110#4 :: [] ∧
      0x013 / 4 = 4 ∧ 0b1110#4 ≠ 0b1111#4 := by decide
theorem witness_UnmappedAccesses :
    legalParams full.params = true ∧ UnmappedWord full.params (0x02C / 4) ∧
      UnmappedWord full.params (0xFFF / 4) ∧ UnmappedWord full.params (0x1004 / 4) ∧
      (onInput full (.read 0x02C)).busy = false ∧
      (onInput full (.read 0x02C)).inputs = .read 0x02C :: [] ∧
      (onInput (busy 0) (.write 0x1004 1#32 0b1111#4)).inflight = some ⟨0#32, 0 + 1⟩ ∧
      (onInput (busy 0) (.write 0x1004 1#32 0b1111#4)).inputs = .write 0x1004 1#32 0b1111#4 :: [] := by
  unfold UnmappedWord
  decide
theorem witness_BlenWriteWithinCapacity :
    legalParams full.params = true ∧ (onInput full (.write 0x020 3#32 0b1111#4)).busy = false ∧
      (onInput full (.write 0x020 3#32 0b1111#4)).inputs = .write 0x020 3#32 0b1111#4 :: [] ∧ 0x020 / 4 = 8 ∧
      (3#32).toNat ≤ byteCap full.params ∧ byteCap full.params < (4#32).toNat := by decide
/-- Each kind of read, the last byte below BYTE_CAP, and every cell of BYTES written. -/
theorem witness_ReadsHaveNoSideEffects :
    legalParams full.params = true ∧ (onInput full (.read 0x1000)).busy = false ∧
      (onInput full (.read 0x1000)).inputs = .read 0x1000 :: [] ∧
      (onInput full (.readLane 0x027 3)).inputs = .readLane 0x027 3 :: [] ∧
      2 < byteCap full.params ∧ (onInput full (rdbInput 2)).inputs = rdbInput 2 :: [] ∧ 0x013 / 4 = 4 ∧
      ∀ j, j < byteCap full.params → memGet [(0, 0x41#8), (1, 0x20#8), (2, 0#8)] j ≠ none := by decide
theorem witness_ResetAbandonsTheCommand :
    legalParams (busy 0).params = true ∧
      ({ busy 0 with inputs := [.reset] } : State).inputs = .reset :: [] ∧
      (busy 0).inflight = some ⟨0#32, 0 + 1⟩ := by decide

end Sys2Proof.Tests
end

section
/-! The build and the host's side (00_scope.md rules R9, R11; 60_exceptions.md rule R202): a completion keeps the
parameters, the host's remaining accesses and its record; a move of the host keeps the parameters. -/

namespace Sys2Proof.Machine

/-- PACK and DECODE's ending stays on the block's side (R114, R122). -/
theorem storeBytes_keeps_hostSide {s t : State} {bs : List Byte} (h : storeBytes s bs = .next t) :
    sameHostSide s t := by
  obtain ⟨_, rfl⟩ := storeBytes_next h
  exact ⟨rfl, rfl, rfl⟩

/-- A command's completion stays on the block's side (R11, R72, R202): each ending is a completion or an error of a
state that differs from `s` in the block's buffers and registers only. -/
theorem exec_keeps_hostSide {i : Instr} {s t : State} (h : exec i s = .next t) : sameHostSide s t := by
  cases i with
  | nop | crc | verify | assemble | clear => cases h; exact ⟨rfl, rfl, rfl⟩
  | pack | decode => exact storeBytes_keeps_hostSide h
  | encode =>
    rcases execEncode_cases s with ⟨_, he⟩ | ⟨_, he⟩ <;> cases he.symm.trans h <;> exact ⟨rfl, rfl, rfl⟩
  | unpack b =>
    rcases execUnpack_cases b s with ⟨_, he⟩ | ⟨_, _, he⟩ | ⟨_, _, he⟩ <;> cases he.symm.trans h <;>
      exact ⟨rfl, rfl, rfl⟩
  | split m =>
    rcases execSplit_cases m s with ⟨_, he⟩ | ⟨_, he⟩ <;> cases he.symm.trans h <;> exact ⟨rfl, rfl, rfl⟩
  | flip k =>
    rcases execFlip_cases k s with ⟨_, he⟩ | ⟨_, _, he⟩ | ⟨_, _, he⟩ <;> cases he.symm.trans h <;>
      exact ⟨rfl, rfl, rfl⟩

/-- So does the completion of any accepted word, a command's or an illegal one (R93, R202). -/
theorem completeWord_keeps_hostSide {w : Word} {s t : State} (h : completeWord w s = .next t) :
    sameHostSide s t := by
  rcases completeWord_cases w s with ⟨i, _, hc⟩ | ⟨_, _, hc⟩
  · exact exec_keeps_hostSide (hc.symm.trans h)
  · cases hc.symm.trans h
    exact ⟨rfl, rfl, rfl⟩

/-- No move of the host changes the build, a reset included (R11, R230). -/
theorem hostMove_keeps_params {s t : State} (h : hostMove s = .next t) : t.params = s.params := by
  rcases hostMove_next h with ⟨_, _, rfl⟩ | ⟨_, _, _, _, _, _, rfl⟩ | ⟨_, _, _, _, _, _, rfl⟩ |
    ⟨_, _, _, rfl⟩ | ⟨_, _, _, _, rfl⟩ | ⟨_, _, _, _, _, rfl⟩ <;> rfl

/-- Settles O40: a step is a move of the host or the completion of the word in flight, and each keeps the build. -/
theorem stepKeepsTheBuild : Obligations.StepKeepsTheBuild := by
  intro s t h
  rcases step_cases (step_next_legal h) with ⟨_, hs⟩ | ⟨w, _, hs⟩ | ⟨w, n, _, hs⟩
  · exact hostMove_keeps_params (hs.symm.trans h)
  · obtain ⟨hparams, _, _⟩ := completeWord_keeps_hostSide (hs.symm.trans h)
    exact hparams
  · exact hostMove_keeps_params (s := { s with inflight := some ⟨w, n⟩ }) (hs.symm.trans h)

end Sys2Proof.Machine
end

section
/-! What a command's completion answers (60_exceptions.md rules R201, R202): the eleven commands' endings, said once, so
that the facts about completions below are case splits over them. -/

namespace Sys2Proof.Machine

/-- The causes for which a command ends in an error, with their codes (R110, R118, R162, R180, in R207's order). -/
inductive ErrorCause (s : State) : Instr → ErrCode → Prop
  | encodeCapacity (h : maxM s.params < 8 * s.blen.toNat) : ErrorCause s .encode .capacity
  | unpackCapacity (b : Arg) (h : cCap s.params < b.toNat) : ErrorCause s (.unpack b) .capacity
  | unpackLength (b : Arg) (hle : b.toNat ≤ cCap s.params) (h : ceilDiv b.toNat 8 ≠ s.blen.toNat) :
      ErrorCause s (.unpack b) .lengthMismatch
  | splitLength (m : Arg) (h : m.toNat + paramK s.params ≠ s.clen) : ErrorCause s (.split m) .lengthMismatch
  | flipAbsent (k : Arg) (h : s.params.hasFlip = false) : ErrorCause s (.flip k) .illegalCommand
  | flipIndex (k : Arg) (hf : s.params.hasFlip = true) (h : s.clen ≤ k.toNat) :
      ErrorCause s (.flip k) .invalidBitIndex

/-- The endings of a command: an error, or the command's data writes and its completion. -/
inductive Completion (s : State) : Instr → State → Prop
  | error {i : Instr} {e : ErrCode} (he : ErrorCause s i e) : Completion s i (raise s e)
  | nop : Completion s .nop (complete s)
  | encode (hle : 8 * s.blen.toNat ≤ maxM s.params) :
      Completion s .encode (complete { s with mbuf := readBits s s.blen.toNat })
  | pack (hle : (packBytes s.cbuf).length ≤ byteCap s.params) :
      Completion s .pack (complete { s with
        bytes := memSetList s.bytes 0 (packBytes s.cbuf)
        blen := BitVec.ofNat 28 (packBytes s.cbuf).length })
  | unpack (b : Arg) (hle : b.toNat ≤ cCap s.params) (hb : ceilDiv b.toNat 8 = s.blen.toNat) :
      Completion s (.unpack b) (complete { s with cbuf := slice (readBits s s.blen.toNat) 0 b.toNat })
  | decode (hle : (wholeBytes s.mbuf).length ≤ byteCap s.params) :
      Completion s .decode (complete { s with
        bytes := memSetList s.bytes 0 (wholeBytes s.mbuf)
        blen := BitVec.ofNat 28 (wholeBytes s.mbuf).length })
  | crc : Completion s .crc (complete { s with crcv := seqWord (rem s.params s.mbuf) })
  | verify : Completion s .verify (completeVerdict { s with crcv := seqWord (rem s.params s.mbuf) }
      (rem s.params s.mbuf == valSeq (paramK s.params) s.rcrc))
  | assemble : Completion s .assemble
      (complete { s with cbuf := s.mbuf ++ valSeq (paramK s.params) s.crcv })
  | split (m : Arg) (hm : m.toNat + paramK s.params = s.clen) :
      Completion s (.split m) (complete { s with
        mbuf := slice s.cbuf 0 m.toNat
        rcrc := seqWord (slice s.cbuf m.toNat (m.toNat + paramK s.params)) })
  | flip (k : Arg) (hf : s.params.hasFlip = true) (hk : k.toNat < s.clen) : Completion s (.flip k)
      (complete { s with cbuf := s.cbuf.modify k.toNat (fun b => xor b true) })
  | clear : Completion s .clear
      (completeClear { s with mbuf := [], cbuf := [], blen := 0, crcv := 0, rcrc := 0 })

/-- A command that answers a next state ends in one of its endings. -/
theorem exec_next {i : Instr} {s t : State} (h : exec i s = .next t) : Completion s i t := by
  cases i with
  | nop => cases h; exact .nop
  | encode =>
    rcases execEncode_cases s with ⟨hc, he⟩ | ⟨hle, he⟩ <;> cases he.symm.trans h
    · exact .error (.encodeCapacity hc)
    · exact .encode hle
  | pack => obtain ⟨hle, rfl⟩ := storeBytes_next h; exact .pack hle
  | unpack b =>
    rcases execUnpack_cases b s with ⟨hc, he⟩ | ⟨hle, hb, he⟩ | ⟨hle, hb, he⟩ <;> cases he.symm.trans h
    · exact .error (.unpackCapacity b hc)
    · exact .error (.unpackLength b hle hb)
    · exact .unpack b hle hb
  | decode => obtain ⟨hle, rfl⟩ := storeBytes_next h; exact .decode hle
  | crc => cases h; exact .crc
  | verify => cases h; exact .verify
  | assemble => cases h; exact .assemble
  | split m =>
    rcases execSplit_cases m s with ⟨hm, he⟩ | ⟨hm, he⟩ <;> cases he.symm.trans h
    · exact .error (.splitLength m hm)
    · exact .split m hm
  | flip k =>
    rcases execFlip_cases k s with ⟨hf, he⟩ | ⟨hf, hk, he⟩ | ⟨hf, hk, he⟩ <;> cases he.symm.trans h
    · exact .error (.flipAbsent k hf)
    · exact .error (.flipIndex k hf hk)
    · exact .flip k hf hk
  | clear => cases h; exact .clear

/-- The completion of an accepted word is one of its command's endings, or IllegalCommand (R93). -/
theorem completeWord_next {w : Word} {s t : State} (h : completeWord w s = .next t) :
    (∃ i, decode s.params.hasFlip w = .ok i ∧ Completion s i t) ∨ t = raise s .illegalCommand := by
  rcases completeWord_cases w s with ⟨i, hd, hc⟩ | ⟨_, _, hc⟩
  · exact .inl ⟨i, hd, exec_next (hc.symm.trans h)⟩
  · cases hc.symm.trans h
    exact .inr rfl

end Sys2Proof.Machine
end

section
/-! The invariants of 10_state.md rule R39: every ending of a command and every move of the host keeps them. -/

namespace Sys2Proof.Machine

/-- A K-bit sequence presented in a register leaves bits 31:K zero (R31, R32). -/
theorem seqWord_toNat_lt (s : Bits) : (seqWord s).toNat < 2 ^ s.length := by
  have hlt := seqVal_lt s
  have hle : seqVal s % 2 ^ 32 ≤ seqVal s := Nat.mod_le _ _
  rw [seqWord, BitVec.toNat_ofNat]
  omega

/-- So a remainder fits K bits (R140). -/
theorem seqWord_rem_lt {p : Params} (hl : legalParams p = true) (m : Bits) :
    (seqWord (rem p m)).toNat < 2 ^ paramK p := by
  obtain ⟨⟨_, _, hP⟩, _⟩ := (legalParams_iff p).1 hl
  have h := seqWord_toNat_lt (rem p m)
  rwa [rem_length p (by omega)] at h

/-- PACK and DECODE's ending keeps the invariants: the bytes stored lie below BYTE_CAP, and BLEN is their number. -/
theorem inv_storeBytes {s : State} (hs : s.Inv) {bs : List Byte} (hle : bs.length ≤ byteCap s.params) :
    (complete { s with bytes := memSetList s.bytes 0 bs, blen := BitVec.ofNat 28 bs.length }).Inv :=
  { hs with
    blen_le := by
      have hmod : bs.length % 2 ^ 28 ≤ bs.length := Nat.mod_le _ _
      simp only [complete_blen, complete_params, BitVec.toNat_ofNat]
      omega
    verdict := by simp
    bytes_wf := memSetList_wf hs.bytes_wf 0 bs
    bytes_lt := fun c hc => by
      rcases mem_memSetList hc with ⟨_, hlt⟩ | hc
      · simp only [complete_params]
        omega
      · exact hs.bytes_lt c hc }

/-- An error keeps the invariants: it changes no data state (R201). -/
theorem inv_raise {s : State} (hs : s.Inv) (e : ErrCode) : (raise s e).Inv := { hs with verdict := by simp }

/-- Every ending of a command keeps the invariants (R39, R202). -/
theorem inv_of_completion {i : Instr} {s t : State} (hs : s.Inv) (h : Completion s i t) : t.Inv := by
  cases h with
  | error he => exact inv_raise hs _
  | nop => exact { hs with verdict := by simp }
  | encode hle => exact { hs with mlen_le := by simpa [State.mlen] using hle, verdict := by simp }
  | pack hle => exact inv_storeBytes hs hle
  | unpack b hle hb =>
    have hlen : (slice (readBits s s.blen.toNat) 0 b.toNat).length ≤ cCap s.params := by
      rw [slice_length]; omega
    exact { hs with clen_le := hlen, verdict := by simp }
  | decode hle => exact inv_storeBytes hs hle
  | crc => exact { hs with crcv_lt := seqWord_rem_lt hs.legal s.mbuf, verdict := by simp }
  | verify => exact { hs with crcv_lt := seqWord_rem_lt hs.legal s.mbuf, verdict := by simp }
  | assemble =>
    have hlen : (s.mbuf ++ valSeq (paramK s.params) s.crcv).length ≤ cCap s.params := by
      have hm : s.mbuf.length ≤ maxM s.params := hs.mlen_le
      simp only [List.length_append, valSeq_length, cCap]
      omega
    exact { hs with clen_le := hlen, verdict := by simp }
  | split m hm =>
    have hc : s.clen ≤ maxM s.params + paramK s.params := hs.clen_le
    have hmlen : (slice s.cbuf 0 m.toNat).length ≤ maxM s.params := by
      rw [slice_length]; omega
    have hrlen : (slice s.cbuf m.toNat (m.toNat + paramK s.params)).length = paramK s.params := by
      rw [slice_length, show s.cbuf.length = s.clen from rfl]; omega
    have hr := seqWord_toNat_lt (slice s.cbuf m.toNat (m.toNat + paramK s.params))
    rw [hrlen] at hr
    exact { hs with mlen_le := hmlen, rcrc_lt := hr, verdict := by simp }
  | flip k hf hk =>
    exact { hs with
      clen_le := by simpa [State.clen] using hs.clen_le
      verdict := by simp }
  | clear =>
    exact { hs with
      mlen_le := Nat.zero_le _
      clen_le := Nat.zero_le _
      blen_le := Nat.zero_le _
      crcv_lt := Nat.two_pow_pos _
      rcrc_lt := Nat.two_pow_pos _
      verdict := by simp }

/-- The completion of any accepted word keeps the invariants (R202). -/
theorem inv_completeWord {w : Word} {s t : State} (hs : s.Inv) (h : completeWord w s = .next t) : t.Inv := by
  rcases completeWord_next h with ⟨i, _, hi⟩ | rfl
  · exact inv_of_completion hs hi
  · exact inv_raise hs _

/-- Reset establishes the invariants in every legal build (R42). -/
theorem inv_platformReset {s : State} (hl : legalParams s.params = true) : (platformReset s).Inv where
  legal := hl
  mlen_le := Nat.zero_le _
  clen_le := Nat.zero_le _
  blen_le := Nat.zero_le _
  crcv_lt := Nat.two_pow_pos _
  rcrc_lt := Nat.two_pow_pos _
  verdict := by simp
  bytes_wf := reset_bytes_wf
  bytes_lt := by simp

/-- Every move of the host keeps the invariants: BLEN is taken up to BYTE_CAP (R35), the window below it (R62). -/
theorem inv_hostMove {s t : State} (hs : s.Inv) (h : hostMove s = .next t) : t.Inv := by
  rcases hostMove_next h with ⟨_, _, rfl⟩ | ⟨_, _, _, _, _, _, rfl⟩ | ⟨_, _, _, _, _, _, rfl⟩ |
    ⟨_, _, _, rfl⟩ | ⟨_, v, _, hv, rfl⟩ | ⟨_, w, v, strb, _, rfl⟩
  · exact inv_platformReset hs.legal
  · exact { hs with }
  · exact { hs with }
  · exact { hs with }
  · have hmod : v.toNat % 2 ^ 28 ≤ v.toNat := Nat.mod_le _ _
    exact { hs with blen_le := by simp only [BitVec.toNat_setWidth]; omega }
  · have hkeep := writeLanes_keep s.params w v strb (List.range 4) hs.bytes_wf hs.bytes_lt
    exact { hs with bytes_wf := hkeep.1, bytes_lt := hkeep.2 }

/-- Settles O39: a step is a move of the host or the completion of the word in flight, and each keeps the invariants. -/
theorem stepKeepsInvariants : Obligations.StepKeepsInvariants := by
  intro s t hs h
  rcases step_cases hs.legal with ⟨_, hstep⟩ | ⟨w, _, hstep⟩ | ⟨w, n, _, hstep⟩
  · exact inv_hostMove hs (hstep.symm.trans h)
  · exact inv_completeWord hs (hstep.symm.trans h)
  · have hs' : State.Inv { s with inflight := some ⟨w, n⟩ } := { hs with }
    exact inv_hostMove hs' (hstep.symm.trans h)

/-- Settles O38: the state at reset is what a reset makes of it, in the default build. -/
theorem resetMeetsInvariants : Obligations.ResetMeetsInvariants :=
  inv_platformReset (s := State.reset) (by decide)

end Sys2Proof.Machine
end

section
/-! Completions (10_state.md rules R29, R30, R41; 60_exceptions.md rule R202): the verdict bits, and what
each command leaves unchanged. -/

namespace Sys2Proof

/-- The fields of a word the decoder accepts are those of the command it decodes to (R92, R93). -/
theorem fields_of_decode {hasFlip : Bool} {w : Word} {i : Instr} (h : decode hasFlip w = .ok i) :
    opField w = opcode i ∧ argField w = operand i := by
  unfold decode at h
  dsimp only at h
  split at h
  case h_4 | h_9 => cases h; exact ⟨BitVec.eq_of_toNat_eq ‹_›, rfl⟩
  case h_10 =>
    split at h
    · cases h; exact ⟨BitVec.eq_of_toNat_eq ‹_›, rfl⟩
    · cases h
  case h_12 => cases h
  all_goals
    obtain ⟨harg, rfl⟩ := plainCommand_eq_ok.1 h
    exact ⟨BitVec.eq_of_toNat_eq ‹_›, harg⟩

/-- So the word is the command's one word (R97). -/
theorem word_of_decode {hasFlip : Bool} {w : Word} {i : Instr} (h : decode hasFlip w = .ok i) : w = encode i := by
  obtain ⟨hop, harg⟩ := fields_of_decode h
  rw [encode, ← hop, ← harg, word_eq_fields]

end Sys2Proof

namespace Sys2Proof.Machine

/-! ### The verdict bits -/

/-- Every ending but VERIFY's clears the verdict bits (R29). -/
theorem Completion.verdict_cleared {i : Instr} {s t : State} (h : Completion s i t) (hi : i ≠ .verify) :
    t.vdone = false ∧ t.vmatch = false := by
  cases h with
  | verify => exact absurd rfl hi
  | _ => exact ⟨rfl, rfl⟩

/-- VERIFY's word is accepted in every build (R92). -/
theorem completeWord_verify (s : State) : completeWord 0x60000000#32 s = execVerify s := by
  have hd : decode s.params.hasFlip 0x60000000#32 = .ok .verify := by
    generalize s.params.hasFlip = hasFlip
    revert hasFlip
    decide
  simp only [completeWord, hd, exec]

/-- Settles O20: VERIFY's ending has the comparison as its verdict, every other ending clears both bits. -/
theorem verdictBitsAfterCompletion : Obligations.VerdictBitsAfterCompletion := by
  intro s t w h
  constructor
  · rintro rfl
    cases (completeWord_verify s).symm.trans h
    exact ⟨rfl, rfl, by simp⟩
  · intro hw
    rcases completeWord_next h with ⟨i, hd, hi⟩ | rfl
    · refine hi.verdict_cleared ?_
      rintro rfl
      exact hw (word_of_decode hd)
    · exact ⟨rfl, rfl⟩

/-! ### Frames -/

/-- An error's code is not 0 (R200). -/
theorem ErrorCause.ne_none {s : State} {i : Instr} {e : ErrCode} (h : ErrorCause s i e) : e ≠ .none := by
  cases h <;> decide

/-- Settles O24: an error changes no data, and each ending writes its own targets only. -/
theorem commandsWriteOnlyTheirTargets : Obligations.CommandsWriteOnlyTheirTargets := by
  intro i s t h
  refine ⟨exec_keeps_hostSide h, ?_⟩
  cases exec_next h with
  | error he => simp [he.ne_none]
  | _ => simp

/-- Bytes above those stored from index 0 on read as before (R114, R122). -/
theorem memGet_memSetList_of_length_le (m : Memory) (bs : List Byte) {j : Nat} (h : bs.length ≤ j) :
    memGet (memSetList m 0 bs) j = memGet m j := by
  rw [memGet_memSetList, if_neg (by omega)]

/-- Every ending but PACK's and DECODE's keeps BYTES (R41). -/
theorem Completion.bytes_kept {i : Instr} {s t : State} (h : Completion s i t) (hp : i ≠ .pack)
    (hd : i ≠ .decode) : t.bytes = s.bytes := by
  cases h with
  | pack => exact absurd rfl hp
  | decode => exact absurd rfl hd
  | _ => rfl

/-- Settles O25: PACK and DECODE store from index 0 on, and no other ending stores. -/
theorem commandsStoreOnlyTheirBytes : Obligations.CommandsStoreOnlyTheirBytes := by
  intro i s t h j
  have hc := exec_next h
  refine ⟨?_, ?_, fun hp hd => by rw [hc.bytes_kept hp hd]⟩
  · rintro rfl hj
    obtain ⟨_, rfl⟩ := storeBytes_next h
    exact memGet_memSetList_of_length_le _ _ hj
  · rintro rfl hj
    obtain ⟨_, rfl⟩ := storeBytes_next h
    exact memGet_memSetList_of_length_le _ _ hj

end Sys2Proof.Machine
end

section
/-! Steps (10_state.md rules R28, R30; 60_exceptions.md rules R205, R206): when the sticky bits change, and what a command
in flight keeps. -/

namespace Sys2Proof.Machine

/-! ### The sticky bits at a completion -/

/-- Every ending but CLEAR's keeps CMDLOST (R30). -/
theorem Completion.cmdLost_kept {i : Instr} {s t : State} (h : Completion s i t) (hi : i ≠ .clear) :
    t.cmdLost = s.cmdLost := by
  cases h with
  | clear => exact absurd rfl hi
  | _ => rfl

/-- Every ending but CLEAR's keeps an ERRSTICKY that is set (R30). -/
theorem Completion.errSticky_kept {i : Instr} {s t : State} (h : Completion s i t) (hi : i ≠ .clear)
    (hs : s.errSticky = true) : t.errSticky = true := by
  cases h with
  | clear => exact absurd rfl hi
  | error he => simp [hs]
  | _ => simpa using hs

/-- No ending leaves a command in flight (R202). -/
theorem Completion.not_busy {i : Instr} {s t : State} (h : Completion s i t) : t.busy = false := by
  cases h <;> rfl

/-- The completion of any word but CLEAR's clears no sticky bit. -/
theorem completeWord_keeps_sticky {w : Word} {s t : State} (h : completeWord w s = .next t)
    (hw : w ≠ 0xF0000000#32) :
    (s.errSticky = true → t.errSticky = true) ∧ (s.cmdLost = true → t.cmdLost = true) := by
  rcases completeWord_next h with ⟨i, hd, hi⟩ | rfl
  · have hclear : i ≠ .clear := by
      rintro rfl
      exact hw (word_of_decode hd)
    exact ⟨hi.errSticky_kept hclear, (hi.cmdLost_kept hclear).trans⟩
  · exact ⟨fun hs => by simp [hs], id⟩

/-- No completion sets CMDLOST (R206): CLEAR's clears it, every other keeps it. -/
theorem completeWord_cmdLost {w : Word} {s t : State} (h : completeWord w s = .next t)
    (hs : s.cmdLost = false) : t.cmdLost = false := by
  rcases completeWord_next h with ⟨i, _, hi⟩ | rfl
  · by_cases hclear : i = .clear
    · subst hclear
      cases hi with
      | error he => exact hs
      | clear => rfl
    · exact (hi.cmdLost_kept hclear).trans hs
  · exact hs

/-- Any completion frees the block (R202). -/
theorem completeWord_not_busy {w : Word} {s t : State} (h : completeWord w s = .next t) : t.busy = false := by
  rcases completeWord_next h with ⟨i, _, hi⟩ | rfl
  · exact hi.not_busy
  · rfl

/-! ### The sticky bits at a move of the host -/

/-- A move of the host that is no reset clears no sticky bit (R30). -/
theorem hostMove_keeps_sticky {s t : State} (h : hostMove s = .next t) :
    (∃ rest, s.inputs = .reset :: rest ∧ t = platformReset { s with inputs := rest }) ∨
      ((s.errSticky = true → t.errSticky = true) ∧ (s.cmdLost = true → t.cmdLost = true)) := by
  rcases hostMove_next h with hreset | ⟨_, _, _, _, _, _, rfl⟩ | ⟨_, _, _, _, _, _, rfl⟩ |
    ⟨_, _, _, rfl⟩ | ⟨_, _, _, _, rfl⟩ | ⟨_, _, _, _, _, rfl⟩
  · exact .inl hreset
  · exact .inr ⟨id, fun _ => rfl⟩
  all_goals exact .inr ⟨id, id⟩

/-- A move of the host sets CMDLOST only by a full-word write to CMD while BUSY = 1 (R206). -/
theorem hostMove_sets_cmdLost {s t : State} (h : hostMove s = .next t) (hs : s.cmdLost = false)
    (ht : t.cmdLost = true) :
    s.busy = true ∧ ∃ off v rest, off / 4 = 4 ∧ s.inputs = .write off v fullStrobe :: rest := by
  rcases hostMove_next h with ⟨_, _, rfl⟩ | ⟨off, v, rest, hi, hcmd, hb, _⟩ | ⟨_, _, _, _, _, _, rfl⟩ |
    ⟨_, _, _, rfl⟩ | ⟨_, _, _, _, rfl⟩ | ⟨_, _, _, _, _, rfl⟩
  case inr.inl => exact ⟨hb, off, v, rest, word_of_target_cmd hcmd, hi⟩
  case inl => cases ht
  all_goals exact absurd (hs.symm.trans ht) (by decide)

/-- Settles O21: completions other than CLEAR's and moves other than a reset keep a sticky bit that is set. -/
theorem stickyBitsLeaveOnlyByClearOrReset : Obligations.StickyBitsLeaveOnlyByClearOrReset := by
  intro s t h hclears
  have hkept : ¬ ((s.errSticky = true → t.errSticky = true) ∧ (s.cmdLost = true → t.cmdLost = true)) := by
    rintro ⟨he, hc⟩
    rcases hclears with ⟨hs, ht⟩ | ⟨hs, ht⟩
    · simp [he hs] at ht
    · simp [hc hs] at ht
  rcases step_cases (step_next_legal h) with ⟨_, hstep⟩ | ⟨w, hw, hstep⟩ | ⟨w, n, _, hstep⟩
  · exact .inr ((hostMove_keeps_sticky (hstep.symm.trans h)).resolve_right hkept)
  · by_cases hclear : w = 0xF0000000#32
    · exact .inl (hclear ▸ hw)
    · exact absurd (completeWord_keeps_sticky (hstep.symm.trans h) hclear) hkept
  · exact .inr ((hostMove_keeps_sticky (hstep.symm.trans h)).resolve_right hkept)

/-- Settles O22: no completion sets CMDLOST, and a move of the host does so only by a dropped write. -/
theorem cmdLostOnlyByDroppedWrite : Obligations.CmdLostOnlyByDroppedWrite := by
  intro s t h hs ht
  rcases step_cases (step_next_legal h) with ⟨_, hstep⟩ | ⟨w, _, hstep⟩ | ⟨w, n, hw, hstep⟩
  · exact hostMove_sets_cmdLost (hstep.symm.trans h) hs ht
  · simp [completeWord_cmdLost (hstep.symm.trans h) hs] at ht
  · obtain ⟨_, hwrite⟩ := hostMove_sets_cmdLost (hstep.symm.trans h) hs ht
    exact ⟨by simp [State.busy, hw], hwrite⟩

/-! ### The command in flight -/

/-- A move of the host while BUSY = 1 that leaves BUSY = 1 keeps the command in flight, the data state and STATUS, but
that it may set CMDLOST: what else it could do is a reset, or needs BUSY = 0 (R28, R205, R241). -/
theorem hostMove_busy_keeps {s t : State} (hs : s.busy = true) (h : hostMove s = .next t) (ht : t.busy = true) :
    sameData s t ∧ t.inflight = s.inflight ∧ t.err = s.err ∧ t.vdone = s.vdone ∧ t.vmatch = s.vmatch ∧
      t.errSticky = s.errSticky ∧ (s.cmdLost = true → t.cmdLost = true) := by
  rcases hostMove_next h with ⟨_, _, rfl⟩ | ⟨_, _, _, _, _, _, rfl⟩ | ⟨_, _, _, _, _, hb, _⟩ |
    ⟨_, _, _, rfl⟩ | ⟨hb, _⟩ | ⟨hb, _⟩
  · cases ht
  · exact ⟨⟨rfl, rfl, rfl, rfl, rfl, rfl⟩, rfl, rfl, rfl, rfl, rfl, fun _ => rfl⟩
  · simp [hs] at hb
  · exact ⟨⟨rfl, rfl, rfl, rfl, rfl, rfl⟩, rfl, rfl, rfl, rfl, rfl, id⟩
  · simp [hs] at hb
  · simp [hs] at hb

/-- Settles O47: of the steps from a busy state only a move of the host answers a busy one. -/
theorem inFlightOperandsAreFrozen : Obligations.InFlightOperandsAreFrozen := by
  intro s t hs h ht
  rcases step_cases (step_next_legal h) with ⟨hn, _⟩ | ⟨w, _, hstep⟩ | ⟨w, n, hw, hstep⟩
  · simp [State.busy, hn] at hs
  · simp [completeWord_not_busy (hstep.symm.trans h)] at ht
  · obtain ⟨hdata, hin, hstatus⟩ := hostMove_busy_keeps rfl (hstep.symm.trans h) ht
    exact ⟨hdata, by simp [hin, hw], hstatus⟩

end Sys2Proof.Machine
end

section
/-! Register writes (10_state.md rules R21, R27, R35, R63): what a BusWrite to a register answers, by its word index. -/

namespace Sys2Proof.Machine

/-- A write to a read-only register is ignored, with any strobe and whether or not BUSY = 1 (R21). -/
theorem busWrite_readOnly (s : State) {off : Nat} (v : Word) (strb : BitVec 4)
    (h : off / 4 ∈ [0, 1, 2, 3, 5, 6, 7, 9, 10]) : busWrite s off v strb = .next s := by
  simp only [List.mem_cons, List.not_mem_nil, or_false] at h
  rcases h with h | h | h | h | h | h | h | h | h <;> rw [busWrite, target_reg s.params h rfl]

/-- A write to CMD answers whether or not BUSY = 1 (R27). -/
theorem busWrite_cmd (s : State) {off : Nat} (v : Word) (strb : BitVec 4) (h : off / 4 = 4) :
    busWrite s off v strb = .next (writeCmd s v strb) := by
  rw [busWrite, target_reg s.params h rfl]

/-- A write to BLEN answers while BUSY = 0 (R35). -/
theorem busWrite_blen (s : State) {off : Nat} (v : Word) (strb : BitVec 4) (h : off / 4 = 8)
    (hb : s.busy = false) : busWrite s off v strb = .next (writeBlen s v strb) := by
  rw [busWrite, target_reg s.params h rfl]
  simp [hb]

/-- A partial-strobe write to CMD is ignored (R63). -/
theorem writeCmd_partial (s : State) (v : Word) {strb : BitVec 4} (h : strb ≠ fullStrobe) :
    writeCmd s v strb = s := if_neg h

/-- A write to BLEN that is partial or above BYTE_CAP is ignored (R35, R63). -/
theorem writeBlen_ignored (s : State) {v : Word} {strb : BitVec 4}
    (h : strb ≠ fullStrobe ∨ byteCap s.params < v.toNat) : writeBlen s v strb = s :=
  if_neg fun ⟨hs, hv⟩ => h.elim (· hs) (Nat.not_lt.2 hv)

/-- A full-word write to BLEN up to BYTE_CAP is taken (R35). -/
theorem writeBlen_taken (s : State) {v : Word} (h : v.toNat ≤ byteCap s.params) :
    writeBlen s v fullStrobe = { s with blen := v.setWidth 28 } := if_pos ⟨rfl, h⟩

/-- Settles O52: each of these writes leaves the state the host's access was taken from. -/
theorem ignoredRegisterWrites : Obligations.IgnoredRegisterWrites := by
  intro s off v strb rest hl hi
  constructor
  · intro hb hoff
    rw [step_idle hl hb hi, perform]
    rcases hoff with hro | ⟨hpart, hs⟩
    · exact busWrite_readOnly _ v strb hro
    · simp only [List.mem_cons, List.not_mem_nil, or_false] at hpart
      rcases hpart with hcmd | hblen
      · rw [busWrite_cmd _ v strb hcmd, writeCmd_partial _ v hs]
      · rw [busWrite_blen { s with inputs := rest } v strb hblen hb, writeBlen_ignored _ (.inl hs)]
  · intro w n hn hoff
    rw [step_busy hl hn hi, perform]
    rcases hoff with hro | ⟨hcmd, hs⟩
    · exact busWrite_readOnly _ v strb hro
    · rw [busWrite_cmd _ v strb hcmd, writeCmd_partial _ v hs]

/-- Settles O54: BYTE_CAP fits BLEN's 28 bits, so the value taken is the value written. -/
theorem blenWriteWithinCapacity : Obligations.BlenWriteWithinCapacity := by
  intro s off v rest hl hb hi hblen
  rw [step_idle hl hb hi, perform, busWrite_blen { s with inputs := rest } v _ hblen hb]
  constructor
  · intro hv
    have hcap := byteCap_lt hl
    refine ⟨_, congrArg _ (writeBlen_taken _ hv), ?_, rfl⟩
    rw [BitVec.toNat_setWidth, Nat.mod_eq_of_lt (by omega)]
  · intro hv
    exact congrArg _ (writeBlen_ignored _ (.inr hv))

end Sys2Proof.Machine
end

section
/-! What the registers read (10_state.md rules R22 to R26, R31 to R35), and reset (R42, R230). -/

namespace Sys2Proof.Machine

/-! ### STATUS -/

/-- Settles O56: STATUS is its fields one above the other, each below the bit where the next begins. -/
theorem statusLayout : Obligations.StatusLayout := by
  intro s
  have hfields := busValue_reg s (off := 0x14) (q := 5) rfl rfl
  simp only [hfields, regValue, statusWord, BitVec.getLsbD_append]
  refine ⟨by simp, by simp, by simp, by simp, fun k hk => ?_, by simp, by simp, fun k hk => ?_⟩
  · simp (disch := omega) only [if_neg, if_pos]
    congr 1
    omega
  · simp (disch := omega) only [if_neg, BitVec.getLsbD_zero]

/-! ### The constant registers -/

/-- CFG is K plus 256 times HAS_FLIP while K fits its five bits (R22). -/
theorem cfgWord_toNat {p : Params} (h : paramK p < 32) :
    (cfgWord p).toNat = paramK p + (if p.hasFlip then 256 else 0) := by
  simp only [cfgWord, BitVec.toNat_append]
  rw [← Nat.shiftLeft_add_eq_or_of_lt (BitVec.isLt _), BitVec.toNat_ofNat]
  cases p.hasFlip <;> simp <;> omega

/-- A register value below 2^k has bits 31:k zero. -/
theorem getLsbD_of_toNat_lt {w : Word} {k b : Nat} (h : w.toNat < 2 ^ k) (hb : k ≤ b) : w.getLsbD b = false :=
  Nat.testBit_lt_two_pow (h.trans_le (Nat.pow_le_pow_right (by decide) hb))

/-- Settles O57: the legal ranges of R9 and R11 make each parameter fit its register. -/
theorem constantRegisters : Obligations.ConstantRegisters := by
  intro s hl
  obtain ⟨⟨_, hK, hP⟩, _, _, hcap⟩ := (legalParams_iff s.params).1 hl
  have hbytes := byteCap_lt hl
  rw [busValue_reg s (off := 0x0) (q := 0) rfl rfl, busValue_reg s (off := 0x4) (q := 1) rfl rfl,
    busValue_reg s (off := 0x8) (q := 2) rfl rfl, busValue_reg s (off := 0xC) (q := 3) rfl rfl]
  refine ⟨cfgWord_toNat (by omega), fun i hi => ?_, fun b hb => ?_, ?_, ?_⟩
  · have hlt : i < s.params.P.length := by omega
    have hbit := seqWord_getLsbD s.params.P (by omega) i hlt
    rw [hP, Nat.add_sub_cancel] at hbit
    rw [regValue, hbit, List.getElem?_eq_getElem hlt]
  · exact getLsbD_of_toNat_lt (seqWord_toNat_lt s.params.P) (by omega)
  · rw [regValue, BitVec.toNat_ofNat, Nat.mod_eq_of_lt (by omega)]
  · rw [regValue, BitVec.toNat_ofNat, Nat.mod_eq_of_lt (by omega)]
    rfl

/-! ### The length and remainder registers -/

/-- A length below 2^28 reads as it is (R33, R34). -/
theorem lengthWord_ofNat_toNat {n : Nat} (h : n < 2 ^ 28) : (lengthWord (BitVec.ofNat 28 n)).toNat = n := by
  rw [lengthWord, BitVec.toNat_setWidth, BitVec.toNat_ofNat]
  omega

/-- Settles O58: in a legal build C_CAP is below 2^28, so the lengths fit; CRCV and RCRC are below 2^K. -/
theorem lengthRegisters : Obligations.LengthRegisters := by
  intro s hs
  obtain ⟨_, _, _, hcap⟩ := (legalParams_iff s.params).1 hs.legal
  have hm : s.mlen < 2 ^ 28 := by
    have h := hs.mlen_le
    rw [maxM] at h
    omega
  have hc : s.clen < 2 ^ 28 := by
    have h := hs.clen_le
    rw [cCap, maxM] at h
    omega
  rw [busValue_reg s (off := 0x18) (q := 6) rfl rfl, busValue_reg s (off := 0x1C) (q := 7) rfl rfl,
    busValue_reg s (off := 0x20) (q := 8) rfl rfl, busValue_reg s (off := 0x24) (q := 9) rfl rfl,
    busValue_reg s (off := 0x28) (q := 10) rfl rfl]
  refine ⟨lengthWord_ofNat_toNat hm, lengthWord_ofNat_toNat hc, ?_, hm, hc, hs.blen_le, rfl, rfl,
    fun b hb => ⟨getLsbD_of_toNat_lt hs.crcv_lt hb, getLsbD_of_toNat_lt hs.rcrc_lt hb⟩⟩
  rw [regValue, lengthWord, BitVec.toNat_setWidth]
  have := s.blen.isLt
  omega

/-! ### Reset -/

/-- The whole of STATUS is 0 after a reset (R42). -/
theorem statusWord_platformReset (s : State) : statusWord (platformReset s) = 0 :=
  show statusWord State.reset = 0 by decide

/-- A reset that heads the host's list is performed by the step, while idle and while a command stays in flight: the
command is gone with it (R230, log 8). -/
theorem step_reset {s : State} {rest : List Input} (hl : legalParams s.params = true)
    (hi : s.inputs = .reset :: rest) (h : s.busy = false ∨ ∃ w n, s.inflight = some ⟨w, n + 1⟩) :
    step s = .next (platformReset { s with inputs := rest }) := by
  rcases h with hb | ⟨w, n, hn⟩
  · exact step_idle hl hb hi
  · exact step_busy hl hn hi

/-- Settles O60: the step is the platform's reset. -/
theorem resetAbandonsTheCommand : Obligations.ResetAbandonsTheCommand := by
  intro s rest hl hi h
  exact ⟨_, step_reset hl hi h, rfl, statusWord_platformReset _, rfl, rfl, rfl, rfl, rfl, fun _ => rfl, rfl,
    rfl, rfl⟩

/-- Settles O59: the values of R42 in the default build, register by register. -/
theorem registersAfterReset : Obligations.RegistersAfterReset := by
  refine ⟨?_, ?_, ?_, ?_, ?_, ?_, ?_, ?_, ?_, ?_, rfl, fun _ => rfl⟩ <;> decide

end Sys2Proof.Machine
end

section
/-! The host's address map (20_memory.md rules R60 to R71): the unmapped offsets, what a write to a window word stores
and what a read of one returns, and that reads change nothing the host can observe. -/

namespace Sys2Proof.Machine

/-! ### Unmapped offsets -/

theorem busValue_unmapped (s : State) {off : Nat} (h : UnmappedWord s.params (off / 4)) : busValue s off = 0 := by
  rw [busValue, target_unmapped s.params h]

/-- A read of an unmapped offset answers 0 whether or not BUSY = 1, and uses up no draw (R64, log 5). -/
theorem busRead_unmapped (s : State) {off : Nat} (view : Word → Word) (h : UnmappedWord s.params (off / 4)) :
    busRead s off view = .next { s with record := s.record ++ [view 0] } := by
  simp [busRead, busValue_unmapped s h, target_unmapped s.params h, readHazard, readDraws]

/-- A write to an unmapped offset is ignored whether or not BUSY = 1 (R64, log 5). -/
theorem busWrite_unmapped (s : State) {off : Nat} (v : Word) (strb : BitVec 4)
    (h : UnmappedWord s.params (off / 4)) : busWrite s off v strb = .next s := by
  rw [busWrite, target_unmapped s.params h]

/-- Settles O53: idle or with one move fewer left, the access answers from the state its input was taken from. -/
theorem unmappedAccesses : Obligations.UnmappedAccesses := by
  intro s off rest hl hu
  constructor
  · intro hb
    constructor
    · intro hi
      rw [step_idle hl hb hi]
      exact busRead_unmapped { s with inputs := rest } id hu
    · intro v strb hi
      rw [step_idle hl hb hi]
      exact busWrite_unmapped { s with inputs := rest } v strb hu
  · intro w n hn
    constructor
    · intro hi
      rw [step_busy hl hn hi]
      exact busRead_unmapped { s with inflight := some ⟨w, n⟩, inputs := rest } id hu
    · intro v strb hi
      rw [step_busy hl hn hi]
      exact busWrite_unmapped { s with inflight := some ⟨w, n⟩, inputs := rest } v strb hu

/-! ### Window writes -/

/-- A write of one lane moves its byte when strobed and below BYTE_CAP, and no other (R62). -/
theorem memGet_writeLane (p : Params) (w : Nat) (v : Word) (strb : BitVec 4) (m : Memory) (lane j : Nat) :
    memGet (writeLane p w v strb m lane) j =
      if j = 4 * w + lane ∧ strb.getLsbD lane = true ∧ j < byteCap p then some (v.extractLsb' (8 * lane) 8)
      else memGet m j := by
  unfold writeLane
  split
  · rename_i hstored
    rw [memGet_memSet]
    by_cases hj : j = 4 * w + lane
    · subst hj
      rw [if_pos rfl, if_pos ⟨rfl, hstored⟩]
    · rw [if_neg hj, if_neg fun h => hj h.1]
  · rename_i hkept
    rw [if_neg]
    rintro ⟨rfl, hstored⟩
    exact hkept hstored

/-- Writes of several lanes of one word: each byte is decided by its own lane, in whatever order (R62). -/
theorem memGet_writeLanes (p : Params) (w : Nat) (v : Word) (strb : BitVec 4) {lanes : List Nat}
    (hlanes : ∀ lane ∈ lanes, lane < 4) (m : Memory) (j : Nat) :
    memGet (lanes.foldl (writeLane p w v strb) m) j =
      if (j / 4 = w ∧ j % 4 ∈ lanes) ∧ strb.getLsbD (j % 4) = true ∧ j < byteCap p
      then some (v.extractLsb' (8 * (j % 4)) 8) else memGet m j := by
  induction lanes generalizing m with
  | nil => simp
  | cons lane lanes ih =>
    have hlane : lane < 4 := hlanes lane List.mem_cons_self
    rw [List.foldl_cons, ih fun l hl => hlanes l (List.mem_cons_of_mem _ hl), memGet_writeLane]
    by_cases hj : j = 4 * w + lane
    · obtain ⟨hw, rfl⟩ : j / 4 = w ∧ j % 4 = lane := by omega
      by_cases hc : strb.getLsbD (j % 4) = true ∧ j < byteCap p
      · simp only [hw, hc, ← hj, List.mem_cons, true_or, and_self, if_true, ite_self]
      · simp only [hc, and_false, if_false]
    · have hother : (j / 4 = w ∧ j % 4 ∈ lane :: lanes) ↔ (j / 4 = w ∧ j % 4 ∈ lanes) :=
        and_congr_right fun hw => by
          rw [List.mem_cons, or_iff_right (by omega)]
      simp only [hother, hj, false_and, if_false]

/-- What each byte reads as after a write to window word `w` (R62). -/
theorem memGet_writeWindow (s : State) (w : Nat) (v : Word) (strb : BitVec 4) (j : Nat) :
    memGet (writeWindow s w v strb).bytes j =
      if j / 4 = w ∧ strb.getLsbD (j % 4) = true ∧ j < byteCap s.params
      then some (v.extractLsb' (8 * (j % 4)) 8) else memGet s.bytes j := by
  have hlane : j % 4 ∈ List.range 4 := List.mem_range.2 (Nat.mod_lt j (by decide))
  rw [writeWindow, memGet_writeLanes s.params w v strb (fun _ => List.mem_range.1)]
  simp only [hlane, and_true]

/-- A write to a window word answers while BUSY = 0 (R62). -/
theorem busWrite_window (s : State) {off w : Nat} (v : Word) (strb : BitVec 4) (h : off / 4 = 1024 + w)
    (hw : WindowWord s.params (off / 4)) (hb : s.busy = false) :
    busWrite s off v strb = .next (writeWindow s w v strb) := by
  rw [busWrite, target_window s.params h hw]
  simp [hb]

/-- Settles O50: the step writes the four lanes of the word, and each byte is decided by its own lane. -/
theorem windowWriteLanes : Obligations.WindowWriteLanes := by
  intro s off w v strb rest hl hb hi hoff hw
  rw [step_idle hl hb hi, perform, busWrite_window { s with inputs := rest } v strb hoff hw hb]
  exact ⟨_, rfl, memGet_writeWindow _ w v strb, rfl⟩

/-! ### Reads -/

/-- One bit of a lane: the cell's below BYTE_CAP, 0 from there on (R62). -/
theorem laneByte_getLsbD (s : State) (j b : Nat) :
    (laneByte s j).getLsbD b = (decide (j < byteCap s.params) && (memRead s j).getLsbD b) := by
  by_cases h : j < byteCap s.params <;> simp [laneByte, h]

theorem busValue_window (s : State) {off w : Nat} (h : off / 4 = 1024 + w) (hw : WindowWord s.params (off / 4)) :
    busValue s off = windowWord s w := by
  rw [busValue, target_window s.params h hw]

/-- What a read returns is the same in every draw once every cell of BYTES has been written; the host's own lists never
matter (R71, log 4). -/
theorem busValue_of_written {s : State} (h : ∀ j, j < byteCap s.params → memGet s.bytes j ≠ none)
    (inputs : List Input) (record : List Word) (draws off : Nat) :
    busValue { s with inputs := inputs, record := record, draws := draws } off = busValue s off := by
  have hlane (j : Nat) :
      laneByte { s with inputs := inputs, record := record, draws := draws } j = laneByte s j := by
    by_cases hj : j < byteCap s.params
    · obtain ⟨v, hv⟩ := Option.ne_none_iff_exists'.1 (h j hj)
      simp [laneByte, memRead, hv]
    · simp [laneByte, hj]
  cases ht : target s.params off with
  | reg r => simp only [busValue, ht]; rfl
  | window w => simp only [busValue, ht, windowWord, hlane]
  | unmapped => simp only [busValue, ht]

/-- A BusRead changes the host's lists and the draw counter alone, which nothing it can observe depends on (R71). -/
theorem readDone_record {s : State} (hb : s.busy = false) (v : Word) (rest : List Input) (draws : Nat) :
    readDone s { s with inputs := rest, record := s.record ++ [v], draws := draws } v rest :=
  ⟨rfl, rfl, rfl, ⟨rfl, rfl, rfl, rfl, rfl, rfl⟩, ⟨rfl, rfl, rfl, rfl, rfl⟩, hb, rfl,
    fun h => busValue_of_written h _ _ _⟩

/-- While BUSY = 0 a BusRead answers, and the view of what it read is recorded (R61, R71, R98). -/
theorem busRead_idle {s : State} (hb : s.busy = false) (off : Nat) (view : Word → Word) (rest : List Input) :
    ∃ t, busRead { s with inputs := rest } off view = .next t ∧ readDone s t (view (busValue s off)) rest := by
  have hfree : ({ s with inputs := rest } : State).busy = false := hb
  refine ⟨_, ?_, readDone_record hb _ rest (s.draws + readDraws (target s.params off))⟩
  rw [busRead, hfree, Bool.false_and]
  rfl

/-- Settles O49: the read records the window word, each lane of which is its cell. -/
theorem windowReadLanes : Obligations.WindowReadLanes := by
  intro s off w rest hl hb hi hoff hw
  obtain ⟨t, ht, hrecord, hinputs, _, hdata, hstatus, hbusy, hparams, _⟩ := busRead_idle hb off id rest
  refine ⟨t, _, (step_idle hl hb hi).trans ht, hrecord, fun lane b hlane hbit => ?_, hdata, hstatus, hbusy, hinputs,
    hparams⟩
  rw [id, busValue_window s hoff hw, windowWord_getLsbD s w hlane hbit, laneByte_getLsbD]

/-- Byte `j` below BYTE_CAP stands in word j / 4 of the window (R62, R98). -/
theorem byteOffset_in_window (p : Params) {j : Nat} (h : j < byteCap p) :
    byteOffset j / 4 = 1024 + j / 4 ∧ WindowWord p (byteOffset j / 4) := by
  simp only [byteOffset, windowBase, WindowWord]
  omega

/-- The lane that `rdb j` records is BYTES[j] (R98). -/
theorem laneOf_byteOffset (s : State) {j : Nat} (h : j < byteCap s.params) (hlane : j % 4 < 4) :
    laneOf ⟨j % 4, hlane⟩ (busValue s (byteOffset j)) = (memRead s j).setWidth 32 := by
  obtain ⟨hoff, hw⟩ := byteOffset_in_window s.params h
  rw [busValue_window s hoff hw]
  apply BitVec.eq_of_getLsbD_eq
  intro b hb
  rw [laneOf_getLsbD, BitVec.getLsbD_setWidth]
  by_cases hbit : b < 8
  · rw [windowWord_getLsbD s _ hlane hbit, Nat.div_add_mod, laneByte_getLsbD]
    simp [h, hb, hbit]
  · simp [hbit, BitVec.getLsbD_of_ge (memRead s j) b (by omega)]

/-- Settles O55: every read is a BusRead while BUSY = 0, and `rdb j`'s lane is byte j of the window. -/
theorem readsHaveNoSideEffects : Obligations.ReadsHaveNoSideEffects := by
  intro s rest hl hb
  refine ⟨fun off hi => ?_, fun off lane hi => ?_, fun j hj hi => ?_,
    fun off => ⟨busValue_aligned s off, fun hcmd => busValue_reg s hcmd rfl⟩⟩
  · rw [step_idle hl hb hi]
    exact busRead_idle hb off id rest
  · obtain ⟨t, ht, hdone⟩ := busRead_idle hb off (laneOf lane) rest
    exact ⟨t, _, (step_idle hl hb hi).trans ht, hdone, laneOf_getLsbD lane _⟩
  · rw [step_idle hl hb hi, ← laneOf_byteOffset s hj]
    exact busRead_idle hb (byteOffset j) _ rest

end Sys2Proof.Machine
end

section
/-! Encoding (30_encoding.md rules R90 to R98): decoder and encoder are inverse to each other on each build's commands,
which words the decoder rejects, what a step does with the decoded word, and the byte write of the host. -/

namespace Sys2Proof

/-! ### The decoder -/

/-- OP and ARG of a command's word are those of R92. -/
theorem fields_of_encode (i : Instr) : opField (encode i) = opcode i ∧ argField (encode i) = operand i :=
  Laws.Fields.fields_of_append _ _

/-- Settles O2: the decoder reads the two fields alone, and those of a command's word pick the command's own row of R92.
FLIP's row is the one that asks for the build. -/
theorem decodeInvertsEncode : Obligations.DecodeInvertsEncode := by
  intro hasFlip i hwf
  obtain ⟨hop, harg⟩ := fields_of_encode i
  rw [decode, hop, harg]
  cases i with
  | unpack | split => rfl
  | flip k => exact if_pos hwf
  | _ => exact plainCommand_eq_ok.2 ⟨rfl, rfl⟩

/-- A build without FLIP decodes no word to it (R94). -/
theorem hasFlip_of_decode_flip {hasFlip : Bool} {w : Word} {k : Arg} (h : decode hasFlip w = .ok (.flip k)) :
    hasFlip = true := by
  have hop : opField w = 9#4 := (fields_of_decode h).1
  rw [decode, hop] at h
  by_contra hno
  cases (if_neg hno).symm.trans h

/-- Settles O3: a decoded word is its fields put together again, and of the commands only FLIP depends on the build. -/
theorem encodeInvertsDecode : Obligations.EncodeInvertsDecode := by
  intro hasFlip w i h
  refine ⟨(word_of_decode h).symm, ?_⟩
  cases i with
  | flip k => exact hasFlip_of_decode_flip h
  | _ => rfl

/-- An operand-less command's row rejects exactly the words whose ARG is not 0 (R95). -/
theorem plainCommand_rejects_iff {op : BitVec 4} {w : Word} {i : Instr} :
    (∃ r, plainCommand op (argField w) i = .error r) ↔ Machine.argNatOf w ≠ 0 := by
  rw [plainCommand_eq_error, ← argField_toNat]
  exact not_congr BitVec.toNat_inj.symm

/-- Settles O4: row by row of R92. UNPACK and SPLIT reject nothing, FLIP's row rejects by the build, the operand-less
rows by ARG, and the OPs without a row are 0xA to 0xE. -/
theorem rejectedWordsExactly : Obligations.RejectedWordsExactly := by
  intro hasFlip w
  have hlt : Machine.opOf w < 16 := opField_toNat w ▸ (opField w).isLt
  rw [decode, opField_toNat, Machine.IllegalWord]
  split <;> rename_i hop
  case h_4 | h_9 => simp [hop]
  case h_10 => cases hasFlip <;> simp [hop]
  case h_12 =>
    have hreserved : 10 ≤ Machine.opOf w ∧ Machine.opOf w ≤ 14 := by
      simp only [imp_false] at *
      omega
    simp [hreserved]
  all_goals
    rw [plainCommand_rejects_iff]
    simp [hop]

/-- Settles O1: the decoder evaluated on each of the words. -/
theorem specWordsDecode : Obligations.SpecWordsDecode := by
  unfold Obligations.SpecWordsDecode
  decide

end Sys2Proof

namespace Sys2Proof.Machine

/-! ### The step with a completion due -/

/-- With no host move left before it, the step is the completion of the accepted word (R202, R243). -/
theorem step_due {s : State} {w : Word} (hl : legalParams s.params = true) (hw : s.inflight = some ⟨w, 0⟩) :
    step s = completeWord w s := by
  simp only [step, hl, if_true, turn, hw, busyTurn]

theorem completeWord_of_decode_ok {s : State} {w : Word} {i : Instr} (h : decode s.params.hasFlip w = .ok i) :
    completeWord w s = exec i s := by
  simp only [completeWord, h]

theorem completeWord_of_decode_error {s : State} {w : Word} {r : IllegalReason}
    (h : decode s.params.hasFlip w = .error r) : completeWord w s = .next (raise s .illegalCommand) := by
  simp only [completeWord, h]

/-- `raise` with a code that is not 0 is an error completion (R201). -/
theorem completedError_raise (s : State) {e : ErrCode} (he : e ≠ .none) : completedError s (raise s e) e :=
  ⟨⟨rfl, rfl, rfl, rfl, rfl, rfl⟩, rfl, by simp [he], rfl, rfl, rfl, rfl, rfl, rfl, rfl⟩

/-- Settles O42: the due completion is that of the decoded command. -/
theorem stepRunsTheDecodedCommand : Obligations.StepRunsTheDecodedCommand := by
  intro s w i hl hw hd
  rw [step_due hl hw, completeWord_of_decode_ok hd]

/-- Settles O5: the decoder rejects an illegal word, so its due completion raises IllegalCommand. -/
theorem illegalWordCompletesWithCode3 : Obligations.IllegalWordCompletesWithCode3 := by
  intro s w hl hw hill
  obtain ⟨r, hd⟩ := (rejectedWordsExactly s.params.hasFlip w).2 hill
  exact ⟨_, (step_due hl hw).trans (completeWord_of_decode_error hd), completedError_raise s (by decide), rfl⟩

/-! ### `wrb` -/

/-- The strobe of `wrb` enables its own lane only (R98). -/
theorem laneStrobe_getLsbD {a b : Nat} (ha : a < 4) :
    (1#4 <<< a).getLsbD b = true ↔ b = a := by
  simp only [BitVec.getLsbD_shiftLeft, BitVec.getLsbD_one, Nat.ofNat_pos, decide_true, Bool.true_and,
    Bool.and_eq_true, decide_eq_true_eq, Bool.not_eq_true', decide_eq_false_iff_not, not_lt]
  omega

/-- The byte that `wrb` puts on a lane of the word is the byte written (R67, R98). -/
theorem extract_laneValue (v : Byte) {lane : Nat} (h : lane < 4) :
    (v.setWidth 32 <<< (8 * lane)).extractLsb' (8 * lane) 8 = v := by
  apply BitVec.eq_of_getLsbD_eq
  intro b hb
  have hbit : 8 * lane + b < 32 := by omega
  simp [hb, hbit]

/-- Of the bytes of BYTES, `wrb j` strobes byte `j` only: its word and its lane (R98). -/
theorem wrb_stores_iff {cap j k : Nat} (hj : j < cap) :
    (k / 4 = j / 4 ∧ (1#4 <<< (j % 4)).getLsbD (k % 4) = true ∧ k < cap) ↔ k = j := by
  rw [laneStrobe_getLsbD (Nat.mod_lt j (by decide))]
  omega

/-- Settles O51: the access is a write to byte j's window word with byte j's lane strobed. -/
theorem byteWriteStatement : Obligations.ByteWriteStatement := by
  intro s j v rest hl hb hj hi
  obtain ⟨hoff, hw⟩ := byteOffset_in_window s.params hj
  rw [step_idle hl hb hi, wrbInput, perform, busWrite_window { s with inputs := rest } _ _ hoff hw hb]
  refine ⟨_, rfl, fun k => ?_, rfl⟩
  rw [memGet_writeWindow]
  simp only [wrb_stores_iff hj]
  split
  · rename_i hk
    rw [hk, extract_laneValue v (Nat.mod_lt j (by decide))]
  · rfl

end Sys2Proof.Machine
end

section
/-! Bytes and bit sequences (00_scope.md rule R16; 40_bitcodec.md rules R110, R114, R118, R122): which bit of a sequence
is which bit of which byte, for the bytes read, packed and stored. -/

namespace Sys2Proof.Machine

/-- Bit i of BYTES[0..n) is bit 7 − i mod 8 of cell i / 8 (R66). -/
theorem readBits_getElem?_div_mod (s : State) {n i : Nat} (h : i < 8 * n) :
    (readBits s n)[i]? = some ((memRead s (i / 8)).getLsbD (7 - i % 8)) := by
  have hbit := readBits_getElem? s n (i / 8) (i % 8) (by omega) (by omega)
  rwa [Nat.div_add_mod] at hbit

theorem slice_getElem?_of_lt (s : Bits) {a b i : Nat} (h : i < b - a) : (slice s a b)[i]? = s[a + i]? := by
  rw [slice, List.getElem?_take_of_lt h, List.getElem?_drop]

theorem slice_zero_of_length_le {s : Bits} {b : Nat} (h : s.length ≤ b) : slice s 0 b = s := by
  rw [slice, List.drop_zero, List.take_of_length_le (by omega)]

/-- Element k of an 8-bit group is bit 7 − k of its byte (R16, R66). -/
theorem getElem?_eq_bitsByte_bit {g : Bits} (hg : g.length = 8) {k : Nat} (hk : k < 8) :
    g[k]? = some ((bitsByte g).getLsbD (7 - k)) := by
  rw [bitsByte_getLsbD g hg k hk, List.getElem?_eq_getElem]

/-- Elements a to a + 7 of a sequence, padded with zeros past its end: the group PACK makes a byte of (R114). -/
def paddedGroup (s : Bits) (a : Nat) : Bits :=
  slice s a (min (a + 8) s.length) ++ zeros (a + 8 - min (a + 8) s.length)

theorem packBytes_getElem? (s : Bits) {j : Nat} (hj : j < ceilDiv s.length 8) :
    (packBytes s)[j]? = some (bitsByte (paddedGroup s (8 * j))) := by
  simp [packBytes, hj, paddedGroup]

theorem paddedGroup_length {s : Bits} {a : Nat} (ha : a ≤ s.length) : (paddedGroup s a).length = 8 := by
  rw [paddedGroup, List.length_append, slice_length, zeros_length]
  omega

theorem paddedGroup_getElem? {s : Bits} {a k : Nat} (ha : a ≤ s.length) (hk : k < 8) :
    (paddedGroup s a)[k]? = some (s[a + k]?.getD false) := by
  have hlen := slice_length s a (min (a + 8) s.length)
  by_cases hend : a + k < s.length
  · rw [paddedGroup, List.getElem?_append_left (by omega), slice_getElem?_of_lt s (by omega),
      List.getElem?_eq_getElem hend, Option.getD_some]
  · rw [paddedGroup, List.getElem?_append_right (by omega), zeros, List.getElem?_replicate_of_lt (by omega),
      List.getElem?_eq_none (by omega), Option.getD_none]

/-- Byte j of a packed sequence holds elements 8j to 8j + 7, MSB first, and 0 past the end (R114, R115). -/
theorem packBytes_bits (s : Bits) {j : Nat} (hj : j < (packBytes s).length) :
    ∃ v, (packBytes s)[j]? = some v ∧ ∀ k, k < 8 → v.getLsbD (7 - k) = (s[8 * j + k]?).getD false := by
  rw [packBytes_length] at hj
  have ha : 8 * j ≤ s.length := by rw [ceilDiv_eight] at hj; omega
  refine ⟨_, packBytes_getElem? s hj, fun k hk => ?_⟩
  have hbit := getElem?_eq_bitsByte_bit (paddedGroup_length ha) hk
  exact Option.some.inj (hbit.symm.trans (paddedGroup_getElem? ha hk))

/-- Byte j of a sequence's whole bytes holds elements 8j to 8j + 7, MSB first (R122). -/
theorem wholeBytes_bits (m : Bits) {j : Nat} (hj : j < (wholeBytes m).length) :
    ∃ v, (wholeBytes m)[j]? = some v ∧ ∀ k, k < 8 → m[8 * j + k]? = some (v.getLsbD (7 - k)) := by
  rw [wholeBytes_length] at hj
  have hgroup : (slice m (8 * j) (8 * j + 8)).length = 8 := by rw [slice_length]; omega
  refine ⟨bitsByte (slice m (8 * j) (8 * j + 8)), ?_, fun k hk => ?_⟩
  · simp [wholeBytes, hj]
  · rw [← getElem?_eq_bitsByte_bit hgroup hk, slice_getElem?_of_lt m (by omega)]

/-- A byte is determined by its bits, named MSB first as the codec does (R66). -/
theorem byte_ext_msbFirst {v w : Byte} (h : ∀ k, k < 8 → v.getLsbD (7 - k) = w.getLsbD (7 - k)) : v = w := by
  apply BitVec.eq_of_getLsbD_eq
  intro b hb
  have hbit := h (7 - b) (by omega)
  rwa [show 7 - (7 - b) = b by omega] at hbit

end Sys2Proof.Machine
end

section
/-! The bit codec (40_bitcodec.md; 60_exceptions.md rules R201, R202, R207): what ENCODE, PACK, UNPACK and DECODE write,
the causes for which a command ends in an error, and the codec's round trips. -/

namespace Sys2Proof.Machine

/-! ### Endings -/

/-- `complete` of a state whose sticky bits and host's side are those of `s` is a completion without error (R202). -/
theorem completedOk_complete {s s' : State} (hsticky : s'.errSticky = s.errSticky) (hlost : s'.cmdLost = s.cmdLost)
    (hside : sameHostSide s s') : completedOk s (complete s') :=
  ⟨rfl, rfl, rfl, by rw [complete_errSticky, hsticky], hlost, rfl, hside⟩

/-- Each error cause ends its command by raising its code: the causes are tested in R207's order. -/
theorem ErrorCause.exec_eq {s : State} {i : Instr} {e : ErrCode} (h : ErrorCause s i e) :
    exec i s = .next (raise s e) := by
  cases h with
  | encodeCapacity h => exact if_pos h
  | unpackCapacity b h => exact if_pos h
  | unpackLength b hle h => exact (if_neg (Nat.not_lt.2 hle)).trans (if_pos h)
  | splitLength m h => exact if_pos h
  | flipAbsent k h => exact if_pos h
  | flipIndex k hf h => exact (if_neg (by simp [hf])).trans (if_pos h)

theorem ErrorCause.completes {s : State} {i : Instr} {e : ErrCode} (h : ErrorCause s i e) :
    ∃ t, exec i s = .next t ∧ completedError s t e :=
  ⟨_, h.exec_eq, completedError_raise s h.ne_none⟩

/-- Settles O17: the clauses are the error causes, one by one. -/
theorem errorCausesComplete : Obligations.ErrorCausesComplete :=
  ⟨fun _ h => (ErrorCause.encodeCapacity h).completes,
    fun _ b h => (ErrorCause.unpackCapacity b h).completes,
    fun _ b hle h => (ErrorCause.unpackLength b hle h).completes,
    fun _ m h => (ErrorCause.splitLength m h).completes,
    fun _ k h => (ErrorCause.flipAbsent k h).completes,
    fun _ k hf h => (ErrorCause.flipIndex k hf h).completes⟩

/-- ENCODE of a text that fits MBUF (R110). -/
theorem exec_encode_of_fits {s : State} (h : 8 * s.blen.toNat ≤ maxM s.params) :
    exec .encode s = .next (complete { s with mbuf := readBits s s.blen.toNat }) :=
  if_neg (Nat.not_lt.2 h)

/-- UNPACK of a bit count that fits CBUF and takes exactly BLEN bytes (R118). -/
theorem exec_unpack_of_fits {s : State} {b : Arg} (hle : b.toNat ≤ cCap s.params)
    (hb : (b.toNat + 7) / 8 = s.blen.toNat) :
    exec (.unpack b) s = .next (complete { s with cbuf := slice (readBits s s.blen.toNat) 0 b.toNat }) :=
  (if_neg (Nat.not_lt.2 hle)).trans (if_neg (not_not_intro hb))

/-- PACK and DECODE's ending (R114, R122): the bytes stand in BYTES from index 0 on, BLEN is their number, the bytes
above and the other data stay. -/
theorem storeBytes_completes {s : State} {bs : List Byte} (hl : legalParams s.params = true)
    (hle : bs.length ≤ byteCap s.params) :
    ∃ t, storeBytes s bs = .next t ∧ completedOk s t ∧ t.blen.toNat = bs.length ∧
      (∀ j, j < bs.length → memGet t.bytes j = bs[j]?) ∧
      (∀ j, bs.length ≤ j → memGet t.bytes j = memGet s.bytes j) ∧
      t.mbuf = s.mbuf ∧ t.cbuf = s.cbuf ∧ t.crcv = s.crcv ∧ t.rcrc = s.rcrc := by
  have hcap := byteCap_lt hl
  refine ⟨_, storeBytes_eq hle, completedOk_complete rfl rfl ⟨rfl, rfl, rfl⟩, ?_, fun j hj => ?_,
    fun j hj => memGet_memSetList_of_length_le _ _ hj, rfl, rfl, rfl, rfl⟩
  · rw [complete_blen, BitVec.toNat_ofNat, Nat.mod_eq_of_lt (by omega)]
  · rw [complete_bytes, memGet_memSetList, if_pos (by omega), Nat.sub_zero]

/-! ### What each command writes -/

/-- Settles O7: MBUF is the bits read from BYTES[0..BLEN). -/
theorem encodeWritesMessageBits : Obligations.EncodeWritesMessageBits := by
  intro s h
  exact ⟨_, exec_encode_of_fits h, completedOk_complete rfl rfl ⟨rfl, rfl, rfl⟩,
    readBits_length s s.blen.toNat, fun j k hj hk => readBits_getElem? s s.blen.toNat j k hj hk,
    rfl, rfl, rfl, rfl, rfl⟩

/-- Settles O8: the bytes stored are the packed codeword's. -/
theorem packWritesWireBytes : Obligations.PackWritesWireBytes := by
  intro s hl hc
  have hlen : (packBytes s.cbuf).length = (s.clen + 7) / 8 := packBytes_length s.cbuf
  obtain ⟨t, ht, hok, hblen, hstored, habove, hframe⟩ := storeBytes_completes hl (packBytes_fit hc)
  rw [hlen] at hblen hstored habove
  refine ⟨t, ht, hok, hblen, fun j k hj hk => ?_, habove, hframe⟩
  obtain ⟨v, hv, hbits⟩ := packBytes_bits s.cbuf (hlen ▸ hj)
  exact ⟨v, (hstored j hj).trans hv, hbits k hk⟩

/-- Settles O9: CBUF is the first b bits read from BYTES[0..BLEN), which holds at least b. -/
theorem unpackReadsCodewordBits : Obligations.UnpackReadsCodewordBits := by
  intro s b hle hb
  have hfit : b.toNat ≤ 8 * s.blen.toNat := by omega
  refine ⟨_, exec_unpack_of_fits hle hb, completedOk_complete rfl rfl ⟨rfl, rfl, rfl⟩, ?_, fun i hi => ?_,
    rfl, rfl, rfl, rfl, rfl⟩
  · rw [complete_clen, State.clen, slice_length, readBits_length]
    omega
  · rw [complete_cbuf, slice_getElem?_of_lt _ (by omega), Nat.zero_add,
      readBits_getElem?_div_mod s (by omega)]

/-- Settles O10: the bytes stored are the message's whole bytes. -/
theorem decodeWritesWholeBytes : Obligations.DecodeWritesWholeBytes := by
  intro s hl hm
  have hlen : (wholeBytes s.mbuf).length = s.mlen / 8 := wholeBytes_length s.mbuf
  obtain ⟨t, ht, hok, hblen, hstored, habove, hframe⟩ := storeBytes_completes hl (wholeBytes_fit hm)
  rw [hlen] at hblen hstored habove
  refine ⟨t, ht, hok, hblen, fun j k hj hk => ?_, habove, hframe⟩
  obtain ⟨v, hv, hbits⟩ := wholeBytes_bits s.mbuf (hlen ▸ hj)
  exact ⟨v, (hstored j hj).trans hv, hbits k hk⟩

/-! ### Laws over two commands -/

/-- A bit count that fits CBUF fits UNPACK's operand (R9, R11). -/
theorem arg_toNat_of_le_cCap {p : Params} (hl : legalParams p = true) {n : Nat} (h : n ≤ cCap p) :
    (BitVec.ofNat 28 n).toNat = n := by
  obtain ⟨_, _, _, hcap⟩ := (legalParams_iff p).1 hl
  rw [BitVec.toNat_ofNat, Nat.mod_eq_of_lt]
  simp only [cCap, maxM] at h
  omega

/-- Settles O30: with b = 8·BLEN, UNPACK drops none of the bits that ENCODE writes. -/
theorem encodeIsUnpackOfWholeBytes : Obligations.EncodeIsUnpackOfWholeBytes := by
  intro s hl h
  have hm : 8 * s.blen.toNat ≤ maxM s.params := by simp only [maxM]; omega
  have hc : 8 * s.blen.toNat ≤ cCap s.params := Nat.le_add_right_of_le hm
  have harg := arg_toNat_of_le_cCap hl hc
  refine ⟨_, _, exec_encode_of_fits hm, exec_unpack_of_fits (harg.trans_le hc) (by omega), rfl, rfl, ?_⟩
  rw [complete_mbuf, complete_cbuf, harg, slice_zero_of_length_le (readBits_length s _).le]

/-- Settles O31: PACK writes element i of the codeword at the place in BYTES where UNPACK reads its bit i. -/
theorem packThenUnpackRestores : Obligations.PackThenUnpackRestores := by
  intro s hl hc
  obtain ⟨t, ht, htok, hblen, hpacked, -⟩ := packWritesWireBytes s hl hc
  obtain ⟨hterr, -, -, -, -, -, hparams, -⟩ := htok
  have harg := arg_toNat_of_le_cCap hl hc
  obtain ⟨u, hu, huok, hclen, hread, -⟩ := unpackReadsCodewordBits t (BitVec.ofNat 28 s.clen)
    (by rwa [harg, hparams]) (by rw [harg, hblen])
  obtain ⟨huerr, -⟩ := huok
  rw [harg] at hclen hread
  refine ⟨t, u, ht, hu, hterr, huerr, ?_, hclen⟩
  apply List.ext_getElem?
  intro i
  by_cases hi : i < s.clen
  · obtain ⟨v, hv, hbit⟩ := hpacked (i / 8) (i % 8) (by omega) (by omega)
    rw [hread i hi, memRead_of_memGet hv, hbit, Nat.div_add_mod, List.getElem?_eq_getElem hi, Option.getD_some]
  · rw [List.getElem?_eq_none (hclen.trans_le (not_lt.1 hi)), List.getElem?_eq_none (not_lt.1 hi)]

/-- Settles O32: MBUF after ENCODE is BLEN whole bytes, so DECODE stores the bytes that ENCODE read. -/
theorem encodeThenDecodeRestores : Obligations.EncodeThenDecodeRestores := by
  intro s hl h
  have hm : 8 * s.blen.toNat ≤ maxM s.params := by simp only [maxM]; omega
  obtain ⟨t, ht, htok, hmlen, hmbuf, -⟩ := encodeWritesMessageBits s hm
  obtain ⟨hterr, -, -, -, -, -, hparams, -⟩ := htok
  obtain ⟨u, hu, huok, hblen, hstored, -⟩ := decodeWritesWholeBytes t (hparams ▸ hl)
    (by rwa [hmlen, hparams])
  obtain ⟨huerr, -⟩ := huok
  have hcount : t.mlen / 8 = s.blen.toNat := by omega
  rw [hcount] at hblen hstored
  refine ⟨t, u, ht, hu, hterr, huerr, BitVec.eq_of_toNat_eq hblen, fun j hj => ?_⟩
  obtain ⟨v, hv, -⟩ := hstored j 0 hj (by decide)
  rw [hv]
  congr 1
  apply byte_ext_msbFirst
  intro k hk
  obtain ⟨w, hw, hbit⟩ := hstored j k hj hk
  obtain rfl : v = w := Option.some.inj (hv.symm.trans hw)
  exact Option.some.inj (hbit.symm.trans (hmbuf j k hj hk))

end Sys2Proof.Machine
end

section
/-! Bit sequences as polynomials over GF(2) (41_crc.md rule R143): the first bit has the highest power of x. -/

namespace Sys2Proof.Machine

open Polynomial

/-- A bit as an element of GF(2). -/
def bitCoeff (b : Bool) : ZMod 2 := if b then 1 else 0

theorem bitCoeff_xor : ∀ a b : Bool, bitCoeff (xor a b) = bitCoeff a + bitCoeff b := by decide

theorem bitCoeff_injective : Function.Injective bitCoeff := by decide

/-- M(x) = Σ s[i]·x^(m−1−i), as the statement of R143 builds it (by Horner's scheme). -/
noncomputable def bitsPoly : Bits → (ZMod 2)[X] := List.foldl (fun acc b => acc * X + C (bitCoeff b)) 0

@[simp] theorem bitsPoly_nil : bitsPoly [] = 0 := rfl

theorem bitsPoly_concat (s : Bits) (b : Bool) : bitsPoly (s ++ [b]) = bitsPoly s * X + C (bitCoeff b) := by
  simp [bitsPoly]

theorem bitsPoly_append (s t : Bits) : bitsPoly (s ++ t) = bitsPoly s * X ^ t.length + bitsPoly t := by
  induction t using List.reverseRecOn with
  | nil => simp
  | append_singleton t b ih =>
    rw [← List.append_assoc, bitsPoly_concat, bitsPoly_concat, ih, List.length_append, List.length_singleton]
    ring

theorem bitsPoly_cons (b : Bool) (s : Bits) :
    bitsPoly (b :: s) = C (bitCoeff b) * X ^ s.length + bitsPoly s := by
  have h : bitsPoly [b] = C (bitCoeff b) := by simp [bitsPoly]
  rw [← h, ← bitsPoly_append, List.singleton_append]

@[simp] theorem bitsPoly_false_cons (s : Bits) : bitsPoly (false :: s) = bitsPoly s := by
  simp [bitsPoly_cons, bitCoeff]

theorem bitsPoly_true_cons (s : Bits) : bitsPoly (true :: s) = X ^ s.length + bitsPoly s := by
  simp [bitsPoly_cons, bitCoeff]

@[simp] theorem bitsPoly_zeros (n : Nat) : bitsPoly (zeros n) = 0 := by
  induction n with
  | zero => rfl
  | succ n ih => rwa [zeros, List.replicate_succ, bitsPoly_false_cons]

theorem degree_bitsPoly_lt (s : Bits) : (bitsPoly s).degree < s.length := by
  induction s with
  | nil => simp [bitsPoly_nil]
  | cons b s ih =>
    have hlt : ((s.length : Nat) : WithBot Nat) < (b :: s).length := by
      exact_mod_cast Nat.lt_succ_self s.length
    rw [bitsPoly_cons]
    exact (degree_add_le _ _).trans_lt (max_lt ((degree_C_mul_X_pow_le _ _).trans_lt hlt) (ih.trans hlt))

/-- The coefficient of a sequence's highest power is its first bit. -/
theorem coeff_bitsPoly_cons (b : Bool) (s : Bits) : (bitsPoly (b :: s)).coeff s.length = bitCoeff b := by
  rw [bitsPoly_cons, coeff_add, coeff_eq_zero_of_degree_lt (degree_bitsPoly_lt s), coeff_C_mul_X_pow, if_pos rfl,
    add_zero]

/-- Sequences of one length are determined by their polynomials. -/
theorem eq_of_bitsPoly_eq {s t : Bits} (hlen : s.length = t.length) (h : bitsPoly s = bitsPoly t) : s = t := by
  induction s generalizing t with
  | nil => exact (List.length_eq_zero_iff.1 hlen.symm).symm
  | cons b s ih =>
    cases t with
    | nil => cases hlen
    | cons c t =>
      have hst : s.length = t.length := Nat.succ.inj hlen
      have hbc : b = c := bitCoeff_injective (by rw [← coeff_bitsPoly_cons b s, h, hst, coeff_bitsPoly_cons])
      subst hbc
      rw [bitsPoly_cons, bitsPoly_cons, hst] at h
      rw [ih hst (add_left_cancel h)]

/-- ⊕ of sequences is addition of their polynomials (R143). -/
theorem bitsPoly_xorBits {s t : Bits} (hlen : s.length = t.length) :
    bitsPoly (xorBits s t) = bitsPoly s + bitsPoly t := by
  induction s generalizing t with
  | nil => rw [List.length_eq_zero_iff.1 hlen.symm]; simp [xorBits]
  | cons b s ih =>
    cases t with
    | nil => cases hlen
    | cons c t =>
      have hst : s.length = t.length := Nat.succ.inj hlen
      have hx : xorBits (b :: s) (c :: t) = xor b c :: xorBits s t := rfl
      rw [hx, bitsPoly_cons, bitsPoly_cons, bitsPoly_cons, ih hst, xorBits_length, bitCoeff_xor, hst, min_self, C_add]
      ring

/-- Flipping bit i adds x^(m−1−i). -/
theorem bitsPoly_flip {s : Bits} {i : Nat} (h : i < s.length) :
    bitsPoly (s.modify i fun b => xor b true) = bitsPoly s + X ^ (s.length - 1 - i) := by
  induction s generalizing i with
  | nil => cases h
  | cons b s ih =>
    cases i with
    | zero =>
      have htrue : bitCoeff true = 1 := rfl
      rw [List.modify_zero_cons, bitsPoly_cons, bitsPoly_cons, bitCoeff_xor, htrue, C_add, C_1, List.length_cons,
        Nat.add_sub_cancel, Nat.sub_zero]
      ring
    | succ i =>
      have hi : i < s.length := Nat.lt_of_succ_lt_succ h
      have he : (b :: s).length - 1 - (i + 1) = s.length - 1 - i := by simp only [List.length_cons]; omega
      rw [List.modify_succ_cons, bitsPoly_cons, bitsPoly_cons, List.length_modify, ih hi, he]
      ring

/-! ### The generator -/

/-- A legal generator is the bit 1 followed by K bits (R9). -/
theorem generator_eq_cons {p : Params} (hl : legalParams p = true) :
    ∃ q : Bits, p.P = true :: q ∧ q.length = paramK p := by
  obtain ⟨⟨_, _, hlen⟩, hhead, _⟩ := (legalParams_iff p).1 hl
  obtain ⟨q, hq⟩ := List.head?_eq_some_iff.1 hhead
  exact ⟨q, hq, by simpa [hq] using hlen⟩

theorem monic_true_cons (q : Bits) : (bitsPoly (true :: q)).Monic := by
  rw [bitsPoly_true_cons]
  exact monic_X_pow_add (degree_bitsPoly_lt q)

theorem degree_true_cons (q : Bits) : (bitsPoly (true :: q)).degree = q.length := by
  rw [bitsPoly_true_cons, degree_add_eq_left_of_degree_lt] <;> rw [degree_X_pow]
  exact degree_bitsPoly_lt q

/-- A sequence shorter than the generator is its own remainder. -/
theorem bitsPoly_mod_self {q r : Bits} (h : r.length ≤ q.length) :
    bitsPoly r %ₘ bitsPoly (true :: q) = bitsPoly r := by
  rw [modByMonic_eq_self_iff (monic_true_cons q), degree_true_cons]
  exact (degree_bitsPoly_lt r).trans_le (by exact_mod_cast h)

end Sys2Proof.Machine
end

section
/-! The division (41_crc.md rules R140 to R144): one window step is reduction modulo the generator, so the sliding
window and the bit-serial loop both give (M(x)·x^K) mod G(x). -/

namespace Sys2Proof.Machine

open Polynomial

/-- The K bits that a window step leaves (R140). -/
theorem windowStep_length {q W : Bits} (hW : W.length = q.length + 1) :
    ((reduceWindow (true :: q) W).drop 1).length = q.length := by
  rw [List.length_drop, reduceWindow_length _ _ hW, List.length_cons, Nat.add_sub_cancel]

/-- A window step reduces the window modulo the generator: the leading coefficient goes, and G is subtracted exactly
when it was 1. -/
theorem bitsPoly_windowStep {q W : Bits} (hW : W.length = q.length + 1) :
    bitsPoly ((reduceWindow (true :: q) W).drop 1) = bitsPoly W %ₘ bitsPoly (true :: q) := by
  cases W with
  | nil => cases hW
  | cons b W =>
    have hlen : W.length = q.length := Nat.succ.inj hW
    cases b with
    | false =>
      have hkeep : (reduceWindow (true :: q) (false :: W)).drop 1 = W := rfl
      rw [hkeep, bitsPoly_false_cons, bitsPoly_mod_self hlen.le]
    | true =>
      have hxor : (reduceWindow (true :: q) (true :: W)).drop 1 = xorBits W q := rfl
      have hsub : bitsPoly (true :: W) - bitsPoly (xorBits W q) = bitsPoly (true :: q) := by
        rw [bitsPoly_xorBits hlen, bitsPoly_true_cons, bitsPoly_true_cons, hlen, CharTwo.sub_eq_add]
        linear_combination bitsPoly W * CharTwo.two_eq_zero (R := (ZMod 2)[X])
      have hx : (xorBits W q).length ≤ q.length := by simp
      rw [hxor, ← bitsPoly_mod_self hx]
      exact (modByMonic_eq_of_dvd_sub (monic_true_cons q) hsub.symm.dvd).symm

/-- A reduction in the course of a Horner step may be left to its end. -/
theorem mod_mul_add_mod {g : (ZMod 2)[X]} (hg : g.Monic) (a b c : (ZMod 2)[X]) :
    (a %ₘ g * b + c) %ₘ g = (a * b + c) %ₘ g := by
  apply modByMonic_eq_of_dvd_sub hg
  rw [add_sub_add_right_eq_sub, ← sub_mul]
  exact (dvd_modByMonic_sub a g).mul_right b

/-- The loop of R140 divides the window followed by the bits not yet pulled in. -/
theorem bitsPoly_remLoop {q W : Bits} (hW : W.length = q.length + 1) (ds : Bits) :
    bitsPoly (remLoop (true :: q) W ds) = bitsPoly (W ++ ds) %ₘ bitsPoly (true :: q) := by
  induction ds generalizing W with
  | nil => rw [remLoop_nil, List.append_nil, bitsPoly_windowStep hW]
  | cons d ds ih =>
    have hnext : ((reduceWindow (true :: q) W).drop 1 ++ [d]).length = q.length + 1 := by
      rw [List.length_append, windowStep_length hW, List.length_singleton]
    rw [remLoop_cons, ih hnext, List.append_assoc, List.singleton_append, bitsPoly_append, bitsPoly_append W,
      bitsPoly_windowStep hW, mod_mul_add_mod (monic_true_cons q)]

theorem rem_nil (p : Params) : rem p [] = zeros (paramK p) := rfl

theorem rem_length_of_legal {p : Params} (hl : legalParams p = true) (s : Bits) : (rem p s).length = paramK p := by
  obtain ⟨⟨_, _, hlen⟩, _⟩ := (legalParams_iff p).1 hl
  exact rem_length p (by omega) s

/-- The sliding-window division is the division of M(x)·x^K by G(x) (R140, R141, R143). -/
theorem bitsPoly_rem {p : Params} (hl : legalParams p = true) (s : Bits) :
    bitsPoly (rem p s) = (bitsPoly s * X ^ paramK p) %ₘ bitsPoly p.P := by
  obtain ⟨q, hP, hq⟩ := generator_eq_cons hl
  by_cases hs : s = []
  · rw [hs, rem_nil, bitsPoly_zeros, bitsPoly_nil, zero_mul, zero_modByMonic]
  · have hpos : 0 < s.length := List.length_pos_of_ne_nil hs
    have hW : ((s ++ zeros (paramK p)).take (paramK p + 1)).length = q.length + 1 := by
      rw [List.length_take, List.length_append, zeros_length]
      omega
    rw [rem, if_neg hs, hP, bitsPoly_remLoop hW, List.take_append_drop, bitsPoly_append, bitsPoly_zeros, add_zero,
      zeros_length]

/-- Settles O27: the loop of R140 carries the reduction modulo G(x) through to the end. -/
theorem remainderIsPolynomialRemainder : Obligations.RemainderIsPolynomialRemainder := by
  intro p s hl
  exact ⟨rem_length_of_legal hl s, bitsPoly_rem hl s⟩

/-- Messages with one polynomial have one remainder. -/
theorem rem_eq_of_bitsPoly_eq {p : Params} (hl : legalParams p = true) {s t : Bits} (h : bitsPoly s = bitsPoly t) :
    rem p s = rem p t := by
  apply eq_of_bitsPoly_eq
  · rw [rem_length_of_legal hl, rem_length_of_legal hl]
  · rw [bitsPoly_rem hl, bitsPoly_rem hl, h]

/-- Settles O28: leading zeros do not change a message's polynomial. -/
theorem leadingZerosDoNotMatter : Obligations.LeadingZerosDoNotMatter := by
  intro p n s hl
  refine ⟨rem_nil p, rem_eq_of_bitsPoly_eq hl ?_⟩
  rw [bitsPoly_append, bitsPoly_zeros, zero_mul, zero_add]

/-! ### The bit-serial form -/

/-- A step of R144 is a window step of R140: the message bit is added to the bit shifted out, not pulled in behind. -/
theorem serialStep_eq_windowStep (P : Bits) (a b : Bool) (R : Bits) :
    serialStep P (a :: R) b = (reduceWindow P (xor a b :: (R ++ [false]))).drop 1 := by
  cases hf : xor a b <;> simp [serialStep, reduceWindow, xorBits, hf, List.drop_zipWith]

/-- A step of R144 on R multiplies R(x) by x, adds the message bit at x^K and reduces modulo G(x). -/
theorem bitsPoly_serialStep {q R : Bits} (hR : R.length = q.length) (hne : R ≠ []) (b : Bool) :
    bitsPoly (serialStep (true :: q) R b) =
      (bitsPoly R * X + C (bitCoeff b) * X ^ q.length) %ₘ bitsPoly (true :: q) := by
  obtain ⟨a, R, rfl⟩ := List.exists_cons_of_ne_nil hne
  have hlen : (R ++ [false]).length = q.length := by simpa using hR
  have hshift : bitsPoly (R ++ [false]) = bitsPoly R * X := by simp [bitsPoly_concat, bitCoeff]
  rw [serialStep_eq_windowStep, bitsPoly_windowStep (by rw [List.length_cons, hlen]), bitsPoly_cons,
    bitsPoly_cons a, hlen, hshift, bitCoeff_xor, C_add, ← hR, List.length_cons]
  congr 1
  ring

theorem remSerial_concat (p : Params) (s : Bits) (b : Bool) :
    remSerial p (s ++ [b]) = serialStep p.P (remSerial p s) b := by
  simp [remSerial]

theorem remSerial_length {p : Params} (hl : legalParams p = true) (s : Bits) :
    (remSerial p s).length = paramK p := by
  obtain ⟨⟨hK, _, hlen⟩, _⟩ := (legalParams_iff p).1 hl
  induction s using List.reverseRecOn with
  | nil => exact zeros_length _
  | append_singleton s b ih =>
    rw [remSerial_concat, serialStep_length _ _ _ (by omega) (List.ne_nil_of_length_pos (by omega)), ih]

/-- The bit-serial loop divides M(x)·x^K by G(x) (R143, R144). -/
theorem bitsPoly_remSerial {p : Params} (hl : legalParams p = true) (s : Bits) :
    bitsPoly (remSerial p s) = (bitsPoly s * X ^ paramK p) %ₘ bitsPoly p.P := by
  obtain ⟨⟨hK, _, _⟩, _⟩ := (legalParams_iff p).1 hl
  obtain ⟨q, hP, hq⟩ := generator_eq_cons hl
  induction s using List.reverseRecOn with
  | nil => rw [bitsPoly_nil, zero_mul, zero_modByMonic]; exact bitsPoly_zeros _
  | append_singleton s b ih =>
    have hR := remSerial_length hl s
    rw [hP] at ih ⊢
    rw [remSerial_concat, hP, bitsPoly_serialStep (hR.trans hq.symm) (List.ne_nil_of_length_pos (by omega)), ih, hq,
      mod_mul_add_mod (monic_true_cons q), bitsPoly_concat]
    congr 1
    ring

/-- Settles O26: both loops give K bits, and those of one polynomial. -/
theorem serialDivisionEqualsWindowDivision : Obligations.SerialDivisionEqualsWindowDivision := by
  intro p s hl
  apply eq_of_bitsPoly_eq
  · rw [remSerial_length hl, rem_length_of_legal hl]
  · rw [bitsPoly_remSerial hl, bitsPoly_rem hl]

end Sys2Proof.Machine
end

section
/-! The commands CRC and VERIFY (41_crc.md rules R142, R145 to R147): how a remainder stands in a register, and what
the two commands answer. -/

namespace Sys2Proof.Machine

/-- val_seq_K of a K-bit sequence's register is the sequence (R16). -/
theorem valSeq_seqWord_of_length {p : Params} (hl : legalParams p = true) {r : Bits} (hr : r.length = paramK p) :
    valSeq (paramK p) (seqWord r) = r := by
  obtain ⟨⟨_, hK, _⟩, _⟩ := (legalParams_iff p).1 hl
  rw [← hr, valSeq_seqWord r (by omega)]

/-- Equality with the K bits of a register, bit by bit (R16, R146). -/
theorem eq_valSeq_iff {r : Bits} {k : Nat} (hr : r.length = k) (v : Word) :
    r = valSeq k v ↔ ∀ i, i < k → r[i]? = some (v.getLsbD (k - 1 - i)) := by
  have hbit (i : Nat) (hi : i < k) : (valSeq k v)[i]? = some (v.getLsbD (k - 1 - i)) := by simp [valSeq, hi]
  constructor
  · rintro h i hi
    rw [h, hbit i hi]
  · intro h
    apply List.ext_getElem?
    intro i
    by_cases hi : i < k
    · rw [h i hi, hbit i hi]
    · rw [List.getElem?_eq_none (by omega), List.getElem?_eq_none (by rw [valSeq_length]; omega)]

/-- A remainder in a register: sequence bit i at register bit K−1−i (R31). -/
theorem rem_getElem?_eq_register {p : Params} (hl : legalParams p = true) (m : Bits) :
    ∀ i, i < paramK p → (rem p m)[i]? = some ((seqWord (rem p m)).getLsbD (paramK p - 1 - i)) :=
  have hlen := rem_length_of_legal hl m
  (eq_valSeq_iff hlen _).1 (valSeq_seqWord_of_length hl hlen).symm

/-- Settles O11: CRCV is the remainder's register. -/
theorem crcWritesRemainder : Obligations.CrcWritesRemainder := by
  intro s hl
  exact ⟨_, rfl, completedOk_complete rfl rfl ⟨rfl, rfl, rfl⟩, rem_getElem?_eq_register hl s.mbuf,
    fun b hb => getLsbD_of_toNat_lt (seqWord_rem_lt hl s.mbuf) hb, rfl, rfl, rfl, rfl, rfl⟩

/-- Settles O12: the verdict is the equality of two K-bit sequences, and CRCV is the remainder's register. -/
theorem verifyComparesExactly : Obligations.VerifyComparesExactly := by
  intro s hl
  have hverdict := eq_valSeq_iff (rem_length_of_legal hl s.mbuf) s.rcrc
  exact ⟨_, rfl, rfl, rfl, beq_iff_eq.trans hverdict, rem_getElem?_eq_register hl s.mbuf,
    fun b hb => getLsbD_of_toNat_lt (seqWord_rem_lt hl s.mbuf) hb, completeVerdict_errSticky _ _, rfl, rfl,
    ⟨rfl, rfl, rfl⟩, rfl, rfl, rfl, rfl, rfl⟩

/-- Settles O29: CRCV is the register of `rem` of the build and MBUF, the verdict its comparison with RCRC. -/
theorem divisionCommandsArePure : Obligations.DivisionCommandsArePure := by
  intro s s' hp hm
  have hrem : rem s.params s.mbuf = rem s'.params s'.mbuf := by rw [hp, hm]
  refine ⟨⟨_, _, rfl, rfl, congrArg seqWord hrem⟩, fun hr => ⟨_, _, rfl, rfl, congrArg seqWord hrem, rfl, ?_⟩⟩
  rw [completeVerdict_vmatch, completeVerdict_vmatch, hrem, hp, hr]

end Sys2Proof.Machine
end

section
/-! The laws of a transmitted codeword (41_crc.md rules R148, R149): what SPLIT and VERIFY make of it, the round trip
without corruption, and the detection of a single flipped bit. -/

namespace Sys2Proof.Machine

open Polynomial

/-- SPLIT and VERIFY of a codeword buffer that holds a message m and K bits r: the verdict is whether r is the
remainder of m (R162, R145). -/
theorem split_verify_verdict {s : State} (hl : legalParams s.params = true) {m r : Bits} (hc : s.cbuf = m ++ r)
    (hm : m.length ≤ maxM s.params) (hr : r.length = paramK s.params) :
    ∃ u v, exec (.split (BitVec.ofNat 28 m.length)) s = .next u ∧ exec .verify u = .next v ∧ u.err = .none ∧
      v.err = .none ∧ v.vdone = true ∧ (v.vmatch = true ↔ rem s.params m = r) := by
  have harg := arg_toNat_of_le_cCap hl (Nat.le_add_right_of_le hm)
  have hlen : (BitVec.ofNat 28 m.length).toNat + paramK s.params = s.clen := by
    rw [harg, ← hr, State.clen, hc, List.length_append]
  refine ⟨_, _, if_neg (not_not_intro hlen), rfl, rfl, rfl, rfl, ?_⟩
  have hmsg : slice s.cbuf 0 m.length = m := by simp [slice, hc]
  have hcrc : slice s.cbuf m.length (m.length + paramK s.params) = r := by simp [slice, hc, ← hr]
  rw [completeVerdict_vmatch, beq_iff_eq, complete_mbuf, complete_params, complete_rcrc, harg, hmsg, hcrc,
    valSeq_seqWord_of_length hl hr]

/-- ENCODE, CRC and ASSEMBLE of a text that fits MBUF make a codeword: 8·BLEN message bits and their remainder (R110,
R142, R160). -/
theorem encode_crc_assemble_codeword {s : State} (hl : legalParams s.params = true)
    (h : 8 * s.blen.toNat ≤ maxM s.params) :
    ∃ s₁ s₂ s₃, exec .encode s = .next s₁ ∧ exec .crc s₁ = .next s₂ ∧ exec .assemble s₂ = .next s₃ ∧
      s₁.err = .none ∧ s₂.err = .none ∧ s₃.err = .none ∧ s₃.params = s.params ∧
      ∃ m : Bits, m.length = 8 * s.blen.toNat ∧ s₃.cbuf = m ++ rem s.params m := by
  refine ⟨_, _, _, exec_encode_of_fits h, rfl, rfl, rfl, rfl, rfl, rfl, readBits s s.blen.toNat,
    readBits_length _ _, ?_⟩
  have hcrc := valSeq_seqWord_of_length hl (rem_length_of_legal hl (readBits s s.blen.toNat))
  rw [complete_cbuf, complete_mbuf, complete_mbuf, complete_params, complete_params, complete_crcv, hcrc]

/-- Settles O34: CBUF after UNPACK is the codeword that ASSEMBLE made of the message and its remainder. -/
theorem frameRoundTripMatches : Obligations.FrameRoundTripMatches := by
  intro s hl h
  have hfit : 8 * s.blen.toNat ≤ maxM s.params := by simp only [maxM]; omega
  obtain ⟨s₁, s₂, s₃, h₁, h₂, h₃, he₁, he₂, he₃, hp₃, m, hm, hcode⟩ := encode_crc_assemble_codeword hl hfit
  have hr := rem_length_of_legal hl m
  have hclen : s₃.clen = 8 * s.blen.toNat + paramK s.params := by
    rw [State.clen, hcode, List.length_append, hm, hr]
  obtain ⟨s₄, s₅, h₄, h₅, he₄, he₅, hcbuf, -⟩ := packThenUnpackRestores s₃ (hp₃ ▸ hl)
    (by rw [hclen, hp₃]; exact Nat.add_le_add_right hfit _)
  obtain ⟨hp₄, -⟩ := exec_keeps_hostSide h₄
  obtain ⟨hp₅, -⟩ := exec_keeps_hostSide h₅
  have hp : s₅.params = s.params := hp₅.trans (hp₄.trans hp₃)
  obtain ⟨s₆, s₇, h₆, h₇, he₆, he₇, hdone, hmatch⟩ := split_verify_verdict (s := s₅) (hp ▸ hl)
    (hcbuf.trans hcode) (by rwa [hm, hp]) (by rw [hr, hp])
  rw [hclen] at h₅
  rw [hm] at h₆
  rw [hp] at hmatch
  exact ⟨s₁, s₂, s₃, s₄, s₅, s₆, s₇, h₁, h₂, h₃, h₄, h₅, h₆, h₇, he₁, he₂, he₃, he₄, he₅, he₆, he₇, hdone,
    hmatch.2 rfl⟩

/-! ### Single flips -/

/-- A codeword matches exactly when its polynomial is divisible by G(x) (R143; R149, derivation step 1). -/
theorem rem_eq_iff_dvd {p : Params} (hl : legalParams p = true) {m r : Bits} (hr : r.length = paramK p) :
    rem p m = r ↔ bitsPoly p.P ∣ bitsPoly (m ++ r) := by
  obtain ⟨q, hP, hq⟩ := generator_eq_cons hl
  have hmod : bitsPoly r %ₘ bitsPoly p.P = bitsPoly r := hP ▸ bitsPoly_mod_self (hr.trans hq.symm).le
  have hsub : bitsPoly (m ++ r) %ₘ bitsPoly p.P = bitsPoly (rem p m) - bitsPoly r := by
    rw [bitsPoly_append, add_modByMonic, hmod, hr, bitsPoly_rem hl, CharTwo.sub_eq_add]
  have hmonic : (bitsPoly p.P).Monic := hP ▸ monic_true_cons q
  rw [← modByMonic_eq_zero_iff_dvd hmonic, hsub, sub_eq_zero]
  exact ⟨congrArg bitsPoly, eq_of_bitsPoly_eq ((rem_length_of_legal hl m).trans hr.symm)⟩

/-- G(x) divides a power of x only as a power of x itself (R149, derivation step 3). -/
theorem generator_dvd_X_pow_iff {p : Params} (hl : legalParams p = true) (e : Nat) :
    bitsPoly p.P ∣ X ^ e ↔ p.P = true :: zeros (paramK p) ∧ paramK p ≤ e := by
  obtain ⟨q, hP, hq⟩ := generator_eq_cons hl
  have hmonomial : bitsPoly (true :: zeros (paramK p)) = X ^ paramK p := by
    rw [bitsPoly_true_cons, bitsPoly_zeros, zeros_length, add_zero]
  rw [hP]
  constructor
  · intro hdvd
    obtain ⟨k, hk, hassoc⟩ := (dvd_prime_pow prime_X e).1 hdvd
    have heq := eq_of_monic_of_associated (monic_true_cons q) (monic_X_pow k) hassoc
    have hdeg := degree_true_cons q
    rw [heq, degree_X_pow, hq, Nat.cast_inj] at hdeg
    subst hdeg
    exact ⟨eq_of_bitsPoly_eq (by simp [hq]) (heq.trans hmonomial.symm), hk⟩
  · rintro ⟨hzeros, hle⟩
    rw [hzeros, hmonomial]
    exact pow_dvd_pow X hle

/-- A flip at bit i of a codeword goes undetected exactly when P = x^K and the bit is in the message (R149). -/
theorem flipped_codeword_matches_iff {p : Params} (hl : legalParams p = true) (m : Bits) {i : Nat}
    (hi : i < (m ++ rem p m).length) {m' r' : Bits} (hr' : r'.length = paramK p)
    (hflip : m' ++ r' = (m ++ rem p m).modify i fun b => xor b true) :
    rem p m' = r' ↔ p.P = true :: zeros (paramK p) ∧ i < m.length := by
  have hr := rem_length_of_legal hl m
  have hcode : bitsPoly p.P ∣ bitsPoly (m ++ rem p m) := (rem_eq_iff_dvd hl hr).1 rfl
  have hplace : paramK p ≤ (m ++ rem p m).length - 1 - i ↔ i < m.length := by
    rw [List.length_append] at hi ⊢
    omega
  rw [rem_eq_iff_dvd hl hr', hflip, bitsPoly_flip hi, dvd_add_right hcode, generator_dvd_X_pow_iff hl, hplace]

/-- With P = x^K every remainder is zeros (R149). -/
theorem rem_of_monomial {p : Params} (hl : legalParams p = true) (hP : p.P = true :: zeros (paramK p)) (m : Bits) :
    rem p m = zeros (paramK p) := by
  have hdvd : bitsPoly p.P ∣ X ^ paramK p := (generator_dvd_X_pow_iff hl _).2 ⟨hP, le_rfl⟩
  rw [rem_eq_iff_dvd hl (zeros_length _), bitsPoly_append, bitsPoly_zeros, add_zero, zeros_length]
  exact hdvd.mul_left _

/-- FLIP of a bit within CBUF, in a build that has it (R180). -/
theorem exec_flip_of_fits {s : State} {i : Arg} (hf : s.params.hasFlip = true) (hi : i.toNat < s.clen) :
    exec (.flip i) s = .next (complete { s with cbuf := s.cbuf.modify i.toNat (fun b => xor b true) }) :=
  (if_neg (by simp [hf])).trans (if_neg (Nat.not_le.2 hi))

/-- Settles O35: SPLIT cuts the flipped codeword at m, and VERIFY's verdict is its divisibility by G(x). -/
theorem singleFlipDetection : Obligations.SingleFlipDetection := by
  refine ⟨fun s m i hl hf hm hc hi => ?_, fun p m hl hP => rem_of_monomial hl hP m⟩
  have ht := exec_flip_of_fits hf hi
  have hlen : (s.cbuf.modify i.toNat fun b => xor b true).length = m.length + paramK s.params := by
    rw [List.length_modify, hc, List.length_append, rem_length_of_legal hl m]
  generalize hflip : (s.cbuf.modify i.toNat fun b => xor b true) = c at ht hlen
  have hm' : (c.take m.length).length = m.length := by rw [List.length_take]; omega
  have hr' : (c.drop m.length).length = paramK s.params := by rw [List.length_drop]; omega
  have hcut : c.take m.length ++ c.drop m.length = c := List.take_append_drop _ _
  obtain ⟨u, v, hu, hv, huerr, -, hdone, hmatch⟩ := split_verify_verdict
    (s := complete { s with cbuf := c }) hl hcut.symm (hm'.trans_le hm) hr'
  rw [State.clen, hc] at hi
  rw [hc] at hflip
  rw [hm'] at hu
  exact ⟨_, u, v, ht, hu, hv, rfl, huerr, hdone,
    hmatch.trans (flipped_codeword_matches_iff hl m hi hr' (hcut.trans hflip.symm))⟩

end Sys2Proof.Machine
end

section
/-! The frame builder (42_frame.md rules R160, R162, R163): what ASSEMBLE and SPLIT write, and that SPLIT undoes
ASSEMBLE. -/

namespace Sys2Proof.Machine

/-- The converse of `valSeq_seqWord`, for a register that fits K bits (R16, R31). -/
theorem seqWord_valSeq {k : Nat} {v : Word} (hk : k ≤ 32) (hv : v.toNat < 2 ^ k) : seqWord (valSeq k v) = v := by
  have hlen := valSeq_length k v
  apply BitVec.eq_of_getLsbD_eq
  intro b _
  by_cases hb : b < k
  · have hbit := seqWord_getLsbD (valSeq k v) (by omega) (k - 1 - b) (by omega)
    rwa [valSeq_getElem, hlen, show k - 1 - (k - 1 - b) = b by omega] at hbit
  · have hlt : (seqWord (valSeq k v)).toNat < 2 ^ k := by simpa only [hlen] using seqWord_toNat_lt (valSeq k v)
    rw [getLsbD_of_toNat_lt hlt (not_lt.1 hb), getLsbD_of_toNat_lt hv (not_lt.1 hb)]

/-- SPLIT at m with m + K = CLEN (R162). -/
theorem exec_split_of_length {s : State} {m : Arg} (h : m.toNat + paramK s.params = s.clen) :
    exec (.split m) s = .next (complete { s with
      mbuf := slice s.cbuf 0 m.toNat
      rcrc := seqWord (slice s.cbuf m.toNat (m.toNat + paramK s.params)) }) :=
  if_neg (not_not_intro h)

/-- SPLIT cuts a codeword buffer that holds a message m and K bits r between the two (R162). -/
theorem exec_split_of_append {s : State} (hl : legalParams s.params = true) {m r : Bits} (hc : s.cbuf = m ++ r)
    (hm : m.length ≤ maxM s.params) (hr : r.length = paramK s.params) :
    exec (.split (BitVec.ofNat 28 m.length)) s = .next (complete { s with mbuf := m, rcrc := seqWord r }) := by
  have harg := arg_toNat_of_le_cCap hl (Nat.le_add_right_of_le hm)
  have hmsg : slice s.cbuf 0 m.length = m := by simp [slice, hc]
  have hcrc : slice s.cbuf m.length (m.length + paramK s.params) = r := by simp [slice, hc, ← hr]
  have hlen : m.length + paramK s.params = s.clen := by rw [State.clen, hc, List.length_append, hr]
  rw [exec_split_of_length (by rwa [harg]), harg, hmsg, hcrc]

/-- Settles O13: the codeword is an append, whose second part is the K bits of CRCV. -/
theorem assembleConcatenates : Obligations.AssembleConcatenates := by
  intro s
  refine ⟨_, rfl, completedOk_complete rfl rfl ⟨rfl, rfl, rfl⟩, ?_, fun i hi => ?_, fun i hi => ?_,
    rfl, rfl, rfl, rfl, rfl⟩
  · rw [complete_clen, State.clen, List.length_append, valSeq_length, State.mlen]
  · exact List.getElem?_append_left hi
  · have hbit := (eq_valSeq_iff (valSeq_length _ s.crcv) s.crcv).1 rfl i hi
    rw [complete_cbuf, State.mlen, List.getElem?_append_right (Nat.le_add_right _ _), Nat.add_sub_cancel_left, hbit]

/-- Settles O14: the slice from m on has exactly K elements, and RCRC is its register. -/
theorem splitSeparates : Obligations.SplitSeparates := by
  intro s m hl hm
  have hclen : s.cbuf.length = m.toNat + paramK s.params := hm.symm
  have hr : (slice s.cbuf m.toNat (m.toNat + paramK s.params)).length = paramK s.params := by
    rw [slice_length]
    omega
  refine ⟨_, exec_split_of_length hm, completedOk_complete rfl rfl ⟨rfl, rfl, rfl⟩, ?_, fun i hi => ?_,
    fun i hi => ?_, fun b hb => ?_, rfl, rfl, rfl, rfl⟩
  · rw [complete_mlen, State.mlen, slice_length]
    omega
  · rw [complete_mbuf, slice_getElem?_of_lt _ (by omega), Nat.zero_add]
  · have hbit := (eq_valSeq_iff hr _).1 (valSeq_seqWord_of_length hl hr).symm i hi
    rwa [slice_getElem?_of_lt _ (by omega)] at hbit
  · exact getLsbD_of_toNat_lt (seqWord_toNat_lt _) (hr.trans_le hb)

/-- Settles O33: SPLIT MLEN cuts the codeword where ASSEMBLE appended, and CRCV's K bits make CRCV again. -/
theorem splitInvertsAssemble : Obligations.SplitInvertsAssemble := by
  intro s hl hm hv
  obtain ⟨⟨_, hK, _⟩, _⟩ := (legalParams_iff s.params).1 hl
  have hsplit := exec_split_of_append
    (s := complete { s with cbuf := s.mbuf ++ valSeq (paramK s.params) s.crcv }) hl rfl hm (valSeq_length _ _)
  exact ⟨_, _, rfl, hsplit, rfl, rfl, rfl, rfl, seqWord_valSeq (by omega) hv⟩

end Sys2Proof.Machine
end

section
/-! The error-injection command FLIP (43_errorsim.md rules R180, R181): the one bit it inverts in CBUF, and the one bit
of one byte that PACK then inverts on the wire. -/

namespace Sys2Proof.Machine

/-- Settles O15: the other elements of CBUF are those that the list update leaves alone. -/
theorem flipInvertsOneBit : Obligations.FlipInvertsOneBit := by
  intro s i hf hi
  refine ⟨_, exec_flip_of_fits hf hi, completedOk_complete rfl rfl ⟨rfl, rfl, rfl⟩, ?_, fun j => ?_,
    rfl, rfl, rfl, rfl, rfl⟩
  · exact List.length_modify _ _ _
  · rw [complete_cbuf, List.getElem?_modify]
    by_cases hj : j = i.toNat
    · simp [hj]
    · simp [hj, Ne.symm hj]

/-- Settles O37: the second FLIP, at an index that is still within CBUF, inverts the same bit again. -/
theorem flipTwiceRestores : Obligations.FlipTwiceRestores := by
  intro s i hf hi
  obtain ⟨t, ht, ⟨-, -, -, -, -, -, hparams, -⟩, htlen, htbit, -⟩ := flipInvertsOneBit s i hf hi
  obtain ⟨u, hu, ⟨huerr, -⟩, -, hubit, -⟩ := flipInvertsOneBit t i (hparams ▸ hf) (htlen ▸ hi)
  refine ⟨t, u, ht, hu, huerr, List.ext_getElem? fun j => ?_⟩
  rw [hubit, htbit]
  by_cases hj : j = i.toNat
  · simp [hj, Function.comp_def]
  · simp [hj]

/-- An inverted element of a sequence, the elements past its end read as zeros. -/
theorem getD_flip {s : Bits} {i : Nat} (hi : i < s.length) (n : Nat) :
    ((s.modify i fun b => xor b true)[n]?).getD false = xor ((s[n]?).getD false) (decide (n = i)) := by
  rw [List.getElem?_modify]
  by_cases hn : n = i
  · simp [hn, hi]
  · simp [hn, Ne.symm hn]

/-- XOR with 2^(7 − r) inverts the bit that is element r of the byte's group (R66). -/
theorem xor_two_pow_bit (v : Byte) {r k : Nat} (hr : r < 8) (hk : k < 8) :
    (v ^^^ BitVec.ofNat 8 (2 ^ (7 - r))).getLsbD (7 - k) = xor (v.getLsbD (7 - k)) (decide (k = r)) := by
  have hiff : 7 - r = 7 - k ↔ k = r := by omega
  rw [BitVec.getLsbD_xor, BitVec.getLsbD_ofNat, Nat.testBit_two_pow, decide_eq_true (show 7 - k < 8 by omega),
    Bool.true_and, decide_eq_decide.2 hiff]

/-- An inverted element i of a sequence is one inverted bit in byte ⌊i/8⌋ of its packed form (R181). -/
theorem packBytes_flip {s : Bits} {i : Nat} (hi : i < s.length) :
    packBytes (s.modify i fun b => xor b true) =
      (packBytes s).modify (i / 8) (· ^^^ BitVec.ofNat 8 (2 ^ (7 - i % 8))) := by
  have hlen : (packBytes (s.modify i fun b => xor b true)).length = (packBytes s).length := by
    rw [packBytes_length, packBytes_length, List.length_modify]
  apply List.ext_getElem?
  intro j
  rw [List.getElem?_modify]
  by_cases hj : j < (packBytes s).length
  · obtain ⟨v, hv, hvbit⟩ := packBytes_bits s hj
    obtain ⟨w, hw, hwbit⟩ := packBytes_bits (s.modify i fun b => xor b true) (hlen ▸ hj)
    rw [hv, hw, Option.map_eq_map, Option.map_some]
    congr 1
    apply byte_ext_msbFirst
    intro k hk
    rw [hwbit k hk, getD_flip hi, ← hvbit k hk]
    by_cases hij : i / 8 = j
    · have hiff : 8 * j + k = i ↔ k = i % 8 := by omega
      rw [if_pos hij, xor_two_pow_bit v (Nat.mod_lt i (by decide)) hk, decide_eq_decide.2 hiff]
    · rw [if_neg hij, decide_eq_false (show 8 * j + k ≠ i by omega), Bool.xor_false]
  · rw [List.getElem?_eq_none (by omega), List.getElem?_eq_none (by omega), Option.map_eq_map, Option.map_none]

/-- Settles O36: the two PACKs store byte lists that differ in one bit of byte ⌊i/8⌋, which is below their count. -/
theorem flipShowsOnTheWire : Obligations.FlipShowsOnTheWire := by
  intro s i hl hf hc hi
  have hpack := packBytes_flip hi
  have hlen : (packBytes (s.cbuf.modify i.toNat fun b => xor b true)).length = (packBytes s.cbuf).length := by
    rw [hpack, List.length_modify]
  have hfit := packBytes_fit hc
  obtain ⟨u, hu, -, hublen, hustored, huabove, -⟩ := storeBytes_completes
    (s := complete { s with cbuf := s.cbuf.modify i.toNat fun b => xor b true }) hl (hlen.trans_le hfit)
  obtain ⟨v, hv, -, hvblen, hvstored, hvabove, -⟩ := storeBytes_completes hl hfit
  refine ⟨_, u, v, exec_flip_of_fits hf hi, hu, hv, BitVec.eq_of_toNat_eq (by omega), fun j => ?_⟩
  by_cases hj : j < (packBytes s.cbuf).length
  · rw [hustored j (hlen ▸ hj), hvstored j hj, hpack, List.getElem?_modify]
    by_cases hij : j = i.toNat / 8
    · simp [hij]
    · simp [hij, Ne.symm hij]
  · have hcount : i.toNat / 8 < (packBytes s.cbuf).length := by
      rw [packBytes_length, ceilDiv_eight, ← State.clen]
      omega
    rw [huabove j (by omega), hvabove j (by omega), if_neg (by omega), complete_bytes]

end Sys2Proof.Machine
end

section
/-! The control commands NOP and CLEAR (44_control.md rules R190, R192): the one ending that only completes, and the one
that brings the whole of STATUS to 0. -/

namespace Sys2Proof.Machine

/-- A completion by itself writes no data state (R202). -/
theorem sameData_complete (s : State) : sameData s (complete s) := ⟨rfl, rfl, rfl, rfl, rfl, rfl⟩

/-- Settles O6: NOP's ending is the bare completion. -/
theorem nopOnlyCompletes : Obligations.NopOnlyCompletes := by
  intro s
  exact ⟨_, rfl, completedOk_complete rfl rfl ⟨rfl, rfl, rfl⟩, sameData_complete s⟩

/-- CLEAR's completion leaves every field of STATUS at 0, the sticky bits included (R26, R192). -/
theorem statusWord_completeClear (s : State) : statusWord (completeClear s) = 0 := by
  simp only [statusWord, completeClear_cmdLost, completeClear_errSticky, completeClear_err, completeClear_vmatch,
    completeClear_vdone, completeClear_busy]
  decide

/-- Settles O16: CLEAR empties the buffers and zeroes the registers, and its completion zeroes STATUS. -/
theorem clearZeroesAllButBytes : Obligations.ClearZeroesAllButBytes := by
  intro s
  exact ⟨_, rfl, rfl, rfl, rfl, rfl, rfl, statusWord_completeClear _, rfl, ⟨rfl, rfl, rfl⟩⟩

end Sys2Proof.Machine
end

section
/-! Exceptions (60_exceptions.md rules R200 to R207): that an error completion changes no data, which words and states
raise which code, that no word hangs, and what a full-word write to CMD does while BUSY = 0 and while BUSY = 1. -/

namespace Sys2Proof

/-! ### The words of the commands that can raise an error -/

/-- The decoder accepts exactly each command's one word, in the builds that have the command (R92, R93). -/
theorem decode_eq_ok_iff {hasFlip : Bool} {w : Word} {i : Instr} :
    decode hasFlip w = .ok i ↔ w = encode i ∧ WellFormed hasFlip i = true := by
  constructor
  · intro h
    obtain ⟨hword, hwf⟩ := encodeInvertsDecode hasFlip w i h
    exact ⟨hword.symm, hwf⟩
  · rintro ⟨rfl, hwf⟩
    exact decodeInvertsEncode hasFlip i hwf

/-- A word is a command's own when its OP and ARG are the command's (R90, R92). -/
theorem eq_encode_iff {w : Word} {i : Instr} :
    w = encode i ↔ Machine.opOf w = (opcode i).toNat ∧ argField w = operand i := by
  rw [← opField_toNat, BitVec.toNat_inj]
  constructor
  · rintro rfl
    exact fields_of_encode i
  · rintro ⟨hop, harg⟩
    rw [encode, ← hop, ← harg, word_eq_fields]

theorem decode_eq_encode_iff {hasFlip : Bool} {w : Word} : decode hasFlip w = .ok .encode ↔ w = 0x10000000#32 :=
  decode_eq_ok_iff.trans (and_iff_left rfl)

theorem decode_eq_unpack_iff {hasFlip : Bool} {w : Word} {b : Arg} :
    decode hasFlip w = .ok (.unpack b) ↔ Machine.opOf w = 3 ∧ argField w = b :=
  decode_eq_ok_iff.trans ((and_iff_left rfl).trans eq_encode_iff)

theorem decode_eq_split_iff {hasFlip : Bool} {w : Word} {m : Arg} :
    decode hasFlip w = .ok (.split m) ↔ Machine.opOf w = 8 ∧ argField w = m :=
  decode_eq_ok_iff.trans ((and_iff_left rfl).trans eq_encode_iff)

theorem decode_eq_flip_iff {hasFlip : Bool} {w : Word} {k : Arg} :
    decode hasFlip w = .ok (.flip k) ↔ (Machine.opOf w = 9 ∧ argField w = k) ∧ hasFlip = true :=
  decode_eq_ok_iff.trans (and_congr_left' eq_encode_iff)

end Sys2Proof

namespace Sys2Proof.Machine

/-! ### Error completions -/

/-- An ending with a code that is not 0 is that of an error cause with this code. -/
theorem Completion.errorCause {i : Instr} {s t : State} (h : Completion s i t) (ht : t.err ≠ .none) :
    ErrorCause s i t.err ∧ t = raise s t.err := by
  cases h with
  | error he => exact ⟨he, rfl⟩
  | _ => exact absurd rfl ht

/-- Settles O18: an ending with a code that is not 0 is `raise` with that code, and so is an illegal word's. -/
theorem errorsKeepDataState : Obligations.ErrorsKeepDataState := by
  intro s t w h ht
  have hraise : t = raise s t.err := by
    rcases completeWord_next h with ⟨i, _, hi⟩ | rfl
    · exact (hi.errorCause ht).2
    · rfl
  rw [hraise]
  exact completedError_raise s ht

/-- A command that answers a next state leaves code `e` there exactly when the state has a cause for it (R200). -/
theorem exec_err_iff {i : Instr} {s t : State} {e : ErrCode} (h : exec i s = .next t) (he : e ≠ .none) :
    t.err = e ↔ ErrorCause s i e := by
  constructor
  · rintro rfl
    exact ((exec_next h).errorCause he).1
  · intro hcause
    cases hcause.exec_eq.symm.trans h
    rfl

/-- A word leaves code `e` exactly when it decodes to a command with a cause for it, or is illegal and `e` is
IllegalCommand (R93, R200). -/
theorem completeWord_err_iff {w : Word} {s t : State} {e : ErrCode} (h : completeWord w s = .next t)
    (he : e ≠ .none) :
    t.err = e ↔ (∃ i, decode s.params.hasFlip w = .ok i ∧ ErrorCause s i e) ∨
      (IllegalWord s.params.hasFlip w ∧ e = .illegalCommand) := by
  rw [← rejectedWordsExactly]
  rcases completeWord_cases w s with ⟨i, hd, hc⟩ | ⟨r, hd, hc⟩
  · simp [hd, exec_err_iff (hc.symm.trans h) he]
  · cases hc.symm.trans h
    simp [hd, eq_comm]

/-! ### The causes of each code -/

/-- FLIP without HAS_FLIP is illegal as a word, so no decoded command raises IllegalCommand (R94, log 15). -/
theorem completeWord_illegalCommand_iff {w : Word} {s t : State} (h : completeWord w s = .next t) :
    t.err = .illegalCommand ↔ IllegalWord s.params.hasFlip w := by
  rw [completeWord_err_iff h (by decide)]
  constructor
  · rintro (⟨_, hd, hcause⟩ | ⟨hw, _⟩)
    · cases hcause with
      | flipAbsent k hf => exact absurd (hf.symm.trans (hasFlip_of_decode_flip hd)) (by decide)
    · exact hw
  · exact fun hw => .inr ⟨hw, rfl⟩

theorem completeWord_capacity_iff {w : Word} {s t : State} (h : completeWord w s = .next t) :
    t.err = .capacity ↔ (w = 0x10000000#32 ∧ maxM s.params < 8 * s.blen.toNat) ∨
      (opOf w = 3 ∧ cCap s.params < argNatOf w) := by
  rw [completeWord_err_iff h (by decide), ← argField_toNat]
  constructor
  · rintro (⟨_, hd, hcause⟩ | ⟨_, ⟨⟩⟩)
    cases hcause with
    | encodeCapacity hc => exact .inl ⟨decode_eq_encode_iff.1 hd, hc⟩
    | unpackCapacity b hc =>
      obtain ⟨hop, rfl⟩ := decode_eq_unpack_iff.1 hd
      exact .inr ⟨hop, hc⟩
  · rintro (⟨hw, hc⟩ | ⟨hop, hc⟩)
    · exact .inl ⟨_, decode_eq_encode_iff.2 hw, .encodeCapacity hc⟩
    · exact .inl ⟨_, decode_eq_unpack_iff.2 ⟨hop, rfl⟩, .unpackCapacity _ hc⟩

theorem completeWord_lengthMismatch_iff {w : Word} {s t : State} (h : completeWord w s = .next t) :
    t.err = .lengthMismatch ↔
      (opOf w = 3 ∧ argNatOf w ≤ cCap s.params ∧ (argNatOf w + 7) / 8 ≠ s.blen.toNat) ∨
      (opOf w = 8 ∧ argNatOf w + paramK s.params ≠ s.clen) := by
  rw [completeWord_err_iff h (by decide), ← argField_toNat]
  constructor
  · rintro (⟨_, hd, hcause⟩ | ⟨_, ⟨⟩⟩)
    cases hcause with
    | unpackLength b hle hb =>
      obtain ⟨hop, rfl⟩ := decode_eq_unpack_iff.1 hd
      exact .inl ⟨hop, hle, hb⟩
    | splitLength m hm =>
      obtain ⟨hop, rfl⟩ := decode_eq_split_iff.1 hd
      exact .inr ⟨hop, hm⟩
  · rintro (⟨hop, hle, hb⟩ | ⟨hop, hm⟩)
    · exact .inl ⟨_, decode_eq_unpack_iff.2 ⟨hop, rfl⟩, .unpackLength _ hle hb⟩
    · exact .inl ⟨_, decode_eq_split_iff.2 ⟨hop, rfl⟩, .splitLength _ hm⟩

theorem completeWord_invalidBitIndex_iff {w : Word} {s t : State} (h : completeWord w s = .next t) :
    t.err = .invalidBitIndex ↔ opOf w = 9 ∧ s.params.hasFlip = true ∧ s.clen ≤ argNatOf w := by
  rw [completeWord_err_iff h (by decide), ← argField_toNat]
  constructor
  · rintro (⟨_, hd, hcause⟩ | ⟨_, ⟨⟩⟩)
    cases hcause with
    | flipIndex k hf hk =>
      obtain ⟨⟨hop, rfl⟩, _⟩ := decode_eq_flip_iff.1 hd
      exact ⟨hop, hf, hk⟩
  · rintro ⟨hop, hf, hk⟩
    exact .inl ⟨_, decode_eq_flip_iff.2 ⟨⟨hop, rfl⟩, hf⟩, .flipIndex _ hf hk⟩

/-- Settles O19: code by code, and the table of R200. -/
theorem errorCodesByCause : Obligations.ErrorCodesByCause :=
  ⟨fun _ _ _ h => ⟨completeWord_illegalCommand_iff h, completeWord_capacity_iff h,
    completeWord_lengthMismatch_iff h, completeWord_invalidBitIndex_iff h⟩, rfl, rfl, rfl, rfl, rfl⟩

/-! ### No command hangs -/

/-- Every command answers a next state while CLEN and MLEN are within their capacities: only PACK and DECODE could stop,
and what they store then fits BYTES (R60, log 12). -/
theorem exec_answers {s : State} (hm : s.mlen ≤ maxM s.params) (hc : s.clen ≤ cCap s.params) (i : Instr) :
    ∃ t, exec i s = .next t := by
  cases i with
  | nop | crc | verify | assemble | clear => exact ⟨_, rfl⟩
  | pack => exact ⟨_, storeBytes_eq (packBytes_fit hc)⟩
  | decode => exact ⟨_, storeBytes_eq (wholeBytes_fit hm)⟩
  | encode => rcases execEncode_cases s with ⟨_, h⟩ | ⟨_, h⟩ <;> exact ⟨_, h⟩
  | unpack b => rcases execUnpack_cases b s with ⟨_, h⟩ | ⟨_, _, h⟩ | ⟨_, _, h⟩ <;> exact ⟨_, h⟩
  | split m => rcases execSplit_cases m s with ⟨_, h⟩ | ⟨_, h⟩ <;> exact ⟨_, h⟩
  | flip k => rcases execFlip_cases k s with ⟨_, h⟩ | ⟨_, _, h⟩ | ⟨_, _, h⟩ <;> exact ⟨_, h⟩

/-- Settles O23: the word's completion answers, and any completion that answers frees the block and keeps R39. -/
theorem everyWordCompletes : Obligations.EveryWordCompletes := by
  intro s w hs
  have hanswers : ∃ t, completeWord w s = .next t := by
    rcases completeWord_cases w s with ⟨i, _, hc⟩ | ⟨_, _, hc⟩
    · rw [hc]
      exact exec_answers hs.mlen_le hs.clen_le i
    · exact ⟨_, hc⟩
  obtain ⟨t, h⟩ := hanswers
  exact ⟨t, h, completeWord_not_busy h, inv_completeWord hs h⟩

/-! ### Full-word writes to CMD -/

theorem writeCmd_idle {s : State} (hb : s.busy = false) (v : Word) : writeCmd s v fullStrobe = accept s v := by
  simp [writeCmd, hb]

theorem writeCmd_busy {s : State} (hb : s.busy = true) (v : Word) : writeCmd s v fullStrobe = dropCommand s := by
  simp [writeCmd, hb]

/-- Settles O43: the step is the acceptance of the written word; its latency is the free value. -/
theorem commandWriteIsAccepted : Obligations.CommandWriteIsAccepted := by
  intro s off w rest hl hb hi hoff
  have hstep : step s = .next (accept { s with inputs := rest } w) := by
    rw [step_idle hl hb hi, perform, busWrite_cmd _ w _ hoff]
    exact congrArg _ (writeCmd_idle (s := { s with inputs := rest }) hb w)
  exact ⟨_, _, hstep, rfl, rfl, ⟨rfl, rfl, rfl, rfl, rfl, rfl⟩, ⟨rfl, rfl, rfl, rfl, rfl⟩, rfl, rfl, rfl⟩

/-- Settles O44: the step drops the written word, from the state with one move fewer left. -/
theorem commandWriteIsDroppedWhileBusy : Obligations.CommandWriteIsDroppedWhileBusy := by
  intro s off n w v rest hl hn hi hoff
  rw [step_busy hl hn hi, perform, busWrite_cmd _ v _ hoff]
  exact congrArg _ (writeCmd_busy rfl v)

end Sys2Proof.Machine
end

section
/-! The host's moves while a command is in flight (70_reset_and_hazards.md rules R241, R243): the reads that stay
defined, and polling until the completion. -/

namespace Sys2Proof.Machine

/-! ### Reads that stay defined while BUSY = 1 -/

/-- R241 forbids no read of the registers CFG to STATUS or of an unmapped offset, and such a read shows no cell of BYTES
(log 5). -/
theorem readHazard_free (p : Params) {off : Nat} (h : off / 4 ≤ 5 ∨ UnmappedWord p (off / 4)) :
    readHazard (target p off) = false ∧ readDraws (target p off) = 0 := by
  rcases h with hreg | hu
  · generalize hq : off / 4 = q at hreg
    interval_cases q <;> rw [target_reg p hq rfl] <;> exact ⟨rfl, rfl⟩
  · rw [target_unmapped p hu]
    exact ⟨rfl, rfl⟩

/-- Such a read answers whether or not BUSY = 1, and changes the record alone (R71, R241). -/
theorem busRead_hazard_free (s : State) {off : Nat} (view : Word → Word)
    (h : off / 4 ≤ 5 ∨ UnmappedWord s.params (off / 4)) :
    busRead s off view = .next { s with record := s.record ++ [view (busValue s off)] } := by
  obtain ⟨hfree, hdraws⟩ := readHazard_free s.params h
  simp [busRead, hfree, hdraws]

/-- What a read returns depends on the command in flight through STATUS.BUSY alone, and not on the host's list (R28). -/
theorem busValue_of_busy {s : State} (hb : s.busy = true) (c : InFlight) (rest : List Input) (off : Nat) :
    busValue { s with inflight := some c, inputs := rest } off = busValue s off := by
  have hstatus : statusWord { s with inflight := some c, inputs := rest } = statusWord s := by
    simp only [statusWord, hb]
    rfl
  cases ht : target s.params off with
  | reg r =>
    simp only [busValue, ht]
    cases r with
    | status => exact hstatus
    | _ => rfl
  | window w => simp only [busValue, ht]; rfl
  | unmapped => simp only [busValue, ht]

/-- Settles O46: the read answers from the state with one move fewer left, which shows what `s` shows. -/
theorem busyReadsWellDefined : Obligations.BusyReadsWellDefined := by
  intro s off n w rest hl hn hi hoff
  have hb : s.busy = true := by simp [State.busy, hn]
  refine ⟨?_, fun hstatus => ?_, fun hzero => ?_⟩
  · rw [step_busy hl hn hi, perform,
      busRead_hazard_free { s with inflight := some ⟨w, n⟩, inputs := rest } id hoff, busValue_of_busy hb, id]
  · rw [busValue_reg s (r := .status) hstatus rfl, regValue, statusWord_busy, hb]
  · rcases hzero with hcmd | hu
    · exact busValue_reg s (r := .cmd) hcmd rfl
    · exact busValue_unmapped s hu

/-! ### Polling until the completion -/

/-- A host that polls or has nothing left to do changes nothing while BUSY = 1 (R18, R98, log 7). -/
theorem hostMove_polling {s : State} (hb : s.busy = true) (hi : s.inputs = [] ∨ ∃ rest, s.inputs = .wait :: rest) :
    hostMove s = .next s := by
  rcases hi with hi | ⟨rest, hi⟩
  · simp only [hostMove, hi]
  · have hpoll : ({ s with inputs := rest } : State).busy = true := hb
    simp only [hostMove, hi, perform, statusWord_busy, hpoll, if_true]
    rw [← hi]

/-- So its step only counts one move down (R243, log 2). -/
theorem step_polling {s : State} {w : Word} {n : Nat} (hl : legalParams s.params = true)
    (hn : s.inflight = some ⟨w, n + 1⟩) (hi : s.inputs = [] ∨ ∃ rest, s.inputs = .wait :: rest) :
    step s = .next { s with inflight := some ⟨w, n⟩ } := by
  simp only [step, hl, if_true, turn, hn, busyTurn]
  exact hostMove_polling rfl hi

/-- A run goes on from what its first step answers. -/
theorem run_succ_of_next {M : Host.Core} {s t : M.State} (k : Nat) (h : M.step s = .next t) :
    M.run (k + 1) s = M.run k t := by
  simp only [Host.Core.run, h]

/-- A run of one step is the step's own outcome. -/
theorem run_one (M : Host.Core) (s : M.State) : M.run 1 s = M.step s := by
  cases h : M.step s <;> simp only [Host.Core.run, h]

/-- Settles O48, by induction on the moves left: each is a poll, and then the completion is due. -/
theorem pollingReachesCompletion : Obligations.PollingReachesCompletion := by
  intro s w n hl hn hi
  induction n generalizing s with
  | zero =>
    rw [← hn]
    exact (run_one core s).trans (step_due hl hn)
  | succ n ih =>
    have hstep : core.step s = .next { s with inflight := some ⟨w, n⟩ } := step_polling hl hn hi
    exact (run_succ_of_next (n + 1) hstep).trans (ih { s with inflight := some ⟨w, n⟩ } hl rfl hi)

end Sys2Proof.Machine
end

section
/-! What a step refuses and what it faults on: a build outside the legal parameters (93_implementation_defined.md U12),
and the data accesses that R241 forbids while BUSY = 1 (70_reset_and_hazards.md rule R241, log 5). -/

namespace Sys2Proof.Machine

/-! ### Illegal builds -/

/-- U12, log 1: no step of an illegal build gets to its turn. -/
theorem step_of_illegal {s : State} (h : legalParams s.params = false) : step s = .refused .illegalConfiguration := by
  simp [step, h]

/-- Settles O41: the refusal stands before every turn, and P[0] = 1 is among what R9 and R11 ask of a build. -/
theorem illegalBuildIsRefused : Obligations.IllegalBuildIsRefused := by
  refine ⟨fun s h => step_of_illegal h, fun p hp => Bool.eq_false_iff.2 fun hl => ?_⟩
  obtain ⟨_, hhead, _⟩ := (legalParams_iff p).1 hl
  exact hp hhead

/-! ### Data accesses that fault while BUSY = 1 -/

/-- A window word's offset names some word of the window (R62). -/
theorem target_of_windowWord {p : Params} {off : Nat} (h : WindowWord p (off / 4)) : ∃ w, target p off = .window w := by
  obtain ⟨w, hw⟩ := Nat.exists_eq_add_of_le h.1
  exact ⟨w, target_window p hw h⟩

/-- R241 forbids the reads of MLEN, CLEN, BLEN, CRCV, RCRC and the window. -/
theorem readHazard_of_data (p : Params) {off : Nat} (h : (6 ≤ off / 4 ∧ off / 4 ≤ 10) ∨ WindowWord p (off / 4)) :
    readHazard (target p off) = true := by
  rcases h with hreg | hwin
  · generalize hq : off / 4 = q at hreg
    obtain ⟨hlo, hhi⟩ := hreg
    interval_cases q <;> rw [target_reg p hq rfl] <;> rfl
  · obtain ⟨w, ht⟩ := target_of_windowWord hwin
    rw [ht]
    rfl

/-- While BUSY = 1 such a read faults, whatever part of the word it records (R241, log 5). -/
theorem busRead_hazard {s : State} (hb : s.busy = true) {off : Nat} (view : Word → Word)
    (h : (6 ≤ off / 4 ∧ off / 4 ≤ 10) ∨ WindowWord s.params (off / 4)) :
    busRead s off view = .fault (.busyHazard off) := by
  simp [busRead, hb, readHazard_of_data s.params h]

/-- While BUSY = 1 a write to BLEN's word or to the window faults, whatever its strobe (R241, log 5). -/
theorem busWrite_hazard {s : State} (hb : s.busy = true) {off : Nat} (v : Word) (strb : BitVec 4)
    (h : off / 4 = 8 ∨ WindowWord s.params (off / 4)) : busWrite s off v strb = .fault (.busyHazard off) := by
  rcases h with hblen | hwin
  · simp [busWrite, target_reg s.params (r := .blen) hblen rfl, hb]
  · obtain ⟨w, ht⟩ := target_of_windowWord hwin
    simp [busWrite, ht, hb]

/-- Settles O45: the access meets the state with one move fewer left, in which BUSY is still 1. -/
theorem busyHazardFaults : Obligations.BusyHazardFaults := by
  intro s off n w rest hl hn
  have hb : ({ s with inflight := some ⟨w, n⟩, inputs := rest } : State).busy = true := rfl
  refine ⟨fun hdata => ⟨fun hi => ?_, fun lane hi => ?_⟩, fun hdata v strb hi => ?_⟩ <;> rw [step_busy hl hn hi]
  · exact busRead_hazard hb id hdata
  · exact busRead_hazard hb (laneOf lane) hdata
  · exact busWrite_hazard hb v strb hdata

end Sys2Proof.Machine
end
